-- ==== Sys2Proof/Word.lean ====
section
/-! DEFINITION. The machine's one word: a memory cell, an operand, an input value, an output value and the
instruction pointer are all signed 64-bit two's complement integers (rules R2, R11, R12, R104).
A word is a bit vector because the spec numbers its bits 63 to 0; the integer it denotes is its toInt. -/

namespace Sys2Proof

/-- One cell value, the spec's s64: 64 bits in two's complement, bit 63 the sign (rules R2, R104). -/
abbrev Word := BitVec 64

/-- The least s64, minus two to the 63 (rule R2). -/
def s64Min : Int := -9223372036854775808

/-- The greatest s64, two to the 63 minus one (rule R2). -/
def s64Max : Int := 9223372036854775807

end Sys2Proof
end

