-- ==== Sys2Proof/Syntax.lean ====
section
/-! DEFINITION. The instruction set as syntax: the two addressing modes, the output of the Instruction Decoder block,
the instruction formats, and one constructor of Instr per row of spec/opcode_table.json.
An instruction here is an instruction WORD after decoding: its parameter cells stay in memory and are read by the
Addressing Resolver when the instruction executes (rules R57, R80, R81). -/

namespace Sys2Proof

/-- An addressing mode (rules R54, R72). -/
inductive Mode where
  /-- Positional, POS: the parameter cell holds the address of the operand. -/
  | pos
  /-- Immediate, IMM: the parameter cell holds the operand. -/
  | imm
deriving DecidableEq, Repr

/-- The four outputs of the Instruction Decoder: the opcode, an integer from -99 to 99, and exactly three modes for
every word, whether or not the instruction uses them (rules R70, R71, R72). -/
structure Decoded where
  opc : Int
  m1 : Mode
  m2 : Mode
  m3 : Mode
deriving DecidableEq, Repr

/-- What an instruction does with a parameter (rules R57, R84). -/
inductive Role where
  /-- An operand that the Resolver's Read fetches in the parameter's own mode. -/
  | read
  /-- A write target, always positional. -/
  | write
deriving DecidableEq, Repr

/-- The instruction formats of rule R57. -/
inductive Format where
  | f3 | f2 | f1w | f1r | f0
deriving DecidableEq, Repr

/-- One constructor per row of spec/opcode_table.json. A constructor carries the modes the instruction USES; the mode
digits that are decoded and ignored (rule R56) are outputs of the decoder (Decoded) and do not reach the instruction. -/
inductive Instr where
  /-- ADD, opcode 1 (rule R110). -/
  | add (m1 m2 : Mode)
  /-- MUL, opcode 2 (rule R111). -/
  | mul (m1 m2 : Mode)
  /-- IN, opcode 3 (rule R120); no mode is used. -/
  | inp
  /-- OUT, opcode 4 (rule R121). -/
  | out (m1 : Mode)
  /-- JT, opcode 5 (rule R130). -/
  | jt (m1 m2 : Mode)
  /-- JF, opcode 6 (rule R131). -/
  | jf (m1 m2 : Mode)
  /-- LT, opcode 7 (rule R140). -/
  | lt (m1 m2 : Mode)
  /-- EQ, opcode 8 (rule R141). -/
  | eq (m1 m2 : Mode)
  /-- HLT, opcode 99 (rule R150); no mode is used. -/
  | hlt
  /-- ILLEGAL, the table's last row: any word whose decoded opcode is not one of the nine (rules R60, R61, R151).
  It carries the decoded opcode, which the fault record stores (rule R17). -/
  | illegal (opc : Int)
deriving DecidableEq, Repr

/-- The nine opcode values that select an instruction (rule R52; 90_conflicts.md C1). -/
def legalOpcodes : List Int := [1, 2, 3, 4, 5, 6, 7, 8, 99]

end Sys2Proof
end

