-- ==== Sys2Proof/WellFormed.lean ====
section
/-! DEFINITION. Which terms of Instr are instructions: every term of the nine legal constructors, and an illegal
word only with an opcode that some word decodes to and that selects none of the nine (rules R60, R61, R71). -/

namespace Sys2Proof

/-- The well-formedness check. For ILLEGAL it is three checks: the opcode is at least -99, at most 99, and not one of
the nine (rules R71, R151). -/
def Instr.wf : Instr → Bool
  | .add _ _ => true
  | .mul _ _ => true
  | .inp => true
  | .out _ => true
  | .jt _ _ => true
  | .jf _ _ => true
  | .lt _ _ => true
  | .eq _ _ => true
  | .hlt => true
  | .illegal opc => decide (-99 ≤ opc) && decide (opc ≤ 99) && decide (opc ∉ legalOpcodes)

end Sys2Proof
end

