-- ==== Sys2Proof/Decode.lean ====
section
/-! DEFINITION. The Instruction Decoder block (40_decoder.md), the opcode map that the Dispatcher applies to its output
(30_encoding.md rule R52), and the encoder of canonical words (rule R59). The encoding is decimal: fields are decimal
digits of the cell's signed value, taken with division truncated toward zero. -/

namespace Sys2Proof

/-! ### The Instruction Decoder -/

/-- The opcode digits of a cell value, tmod(w, 100) (rules R50, R51, R70, R73). Int.tmod has the sign of w. -/
def opcodeDigits (w : Int) : Int := w.tmod 100

/-- The decimal digit of the given weight, tmod(tdiv(w, weight), 10) (rules R53, R70, R73). -/
def modeDigit (weight w : Int) : Int := (w.tdiv weight).tmod 10

/-- The digit 1 is immediate, and every other digit is positional (rules R54, R72). -/
def modeOfDigit (d : Int) : Mode := if d = 1 then .imm else .pos

/-- The Instruction Decoder, total on all words: the opcode and three modes, from the weights 100, 1000 and 10000
(rules R70 to R74). -/
def decodeWord (w : Word) : Decoded :=
  { opc := opcodeDigits w.toInt
    m1 := modeOfDigit (modeDigit 100 w.toInt)
    m2 := modeOfDigit (modeDigit 1000 w.toInt)
    m3 := modeOfDigit (modeDigit 10000 w.toInt) }

/-! ### The opcode map -/

/-- The instruction that a decoded word selects: one of the nine by its opcode, else the illegal word (rules R52, R60,
R92). The modes the instruction does not use are dropped here (rule R56). -/
def selectInstr (d : Decoded) : Instr :=
  if d.opc = 1 then .add d.m1 d.m2
  else if d.opc = 2 then .mul d.m1 d.m2
  else if d.opc = 3 then .inp
  else if d.opc = 4 then .out d.m1
  else if d.opc = 5 then .jt d.m1 d.m2
  else if d.opc = 6 then .jf d.m1 d.m2
  else if d.opc = 7 then .lt d.m1 d.m2
  else if d.opc = 8 then .eq d.m1 d.m2
  else if d.opc = 99 then .hlt
  else .illegal d.opc

/-- The instruction that an instruction word stands for. Decoding never fails: a word of no legal opcode is rejected by
name, as the instruction ILLEGAL with its opcode (rules R74, R151). -/
def decode (w : Word) : Instr := selectInstr (decodeWord w)

/-- The opcode of an instruction (rule R52; for an illegal word the decoded one, rule R17). -/
def Instr.opcode : Instr → Int
  | .add _ _ => 1
  | .mul _ _ => 2
  | .inp => 3
  | .out _ => 4
  | .jt _ _ => 5
  | .jf _ _ => 6
  | .lt _ _ => 7
  | .eq _ _ => 8
  | .hlt => 99
  | .illegal opc => opc

/-- The format of an instruction; an illegal word has none (rules R52, R57). -/
def Instr.format : Instr → Option Format
  | .add _ _ => some .f3
  | .mul _ _ => some .f3
  | .inp => some .f1w
  | .out _ => some .f1r
  | .jt _ _ => some .f2
  | .jf _ _ => some .f2
  | .lt _ _ => some .f3
  | .eq _ _ => some .f3
  | .hlt => some .f0
  | .illegal _ => none

/-- The format that the Dispatcher derives from the opcode (rules R52, R58, R96). -/
def formatOfOpcode (opc : Int) : Option Format :=
  if opc = 1 ∨ opc = 2 ∨ opc = 7 ∨ opc = 8 then some .f3
  else if opc = 5 ∨ opc = 6 then some .f2
  else if opc = 3 then some .f1w
  else if opc = 4 then some .f1r
  else if opc = 99 then some .f0
  else none

/-- The roles of a format's parameters, parameter 1 first (rules R57, R84). -/
def Format.params : Format → List Role
  | .f3 => [.read, .read, .write]
  | .f2 => [.read, .read]
  | .f1w => [.write]
  | .f1r => [.read]
  | .f0 => []

/-- The instruction width in cells: the word and its parameter cells (rule R58). -/
def Format.length (f : Format) : Nat := 1 + f.params.length

/-! ### The encoder -/

/-- The canonical digit of a mode: 1 for immediate and 0 for positional (rules R59, R72). -/
def Mode.digit : Mode → Int
  | .pos => 0
  | .imm => 1

/-- The mode digits of the canonical word, weighted: 100 for parameter 1 and 1000 for parameter 2, and 0 for every
ignored or absent parameter (rule R59). -/
def Instr.modeDigits : Instr → Int
  | .add m1 m2 => 100 * m1.digit + 1000 * m2.digit
  | .mul m1 m2 => 100 * m1.digit + 1000 * m2.digit
  | .inp => 0
  | .out m1 => 100 * m1.digit
  | .jt m1 m2 => 100 * m1.digit + 1000 * m2.digit
  | .jf m1 m2 => 100 * m1.digit + 1000 * m2.digit
  | .lt m1 m2 => 100 * m1.digit + 1000 * m2.digit
  | .eq m1 m2 => 100 * m1.digit + 1000 * m2.digit
  | .hlt => 0
  | .illegal _ => 0

/-- The canonical instruction word (rule R59). An illegal word has no canonical form, and is represented by the cell that
holds its opcode, one of the words that decode to it: DESIGN CHOICE (log 11), safe. -/
def encode (i : Instr) : Word := BitVec.ofInt 64 (i.opcode + i.modeDigits)

/-! ### The host's numbering of an instruction's bits -/

/-- The four cells of an instruction given as one number: bit 0 is the least significant bit of the first cell, and
cell k holds the bits 64 k to 64 k + 63; the bits from nbits up are 0. -/
def tableCells (nbits w : Nat) : List Word :=
  let v := w % 2 ^ nbits
  [BitVec.ofNat 64 v, BitVec.ofNat 64 (v / 2 ^ 64), BitVec.ofNat 64 (v / 2 ^ 128), BitVec.ofNat 64 (v / 2 ^ 192)]

/-- The instruction the decoder reads from the first of those cells. The decoder refuses nothing (rule R74). -/
def decodeTableWord (nbits w : Nat) : Option Instr :=
  (tableCells nbits w).head?.map decode

end Sys2Proof
end

