-- ==== Sys2Proof/Config.lean ====
section
/-! DEFINITION. What is fixed for every run. The spec leaves no implementation-defined value and no free value
(rules R4, R100 and 93_implementation_defined.md, the sentence after U17), so nothing here is opaque; the launch
parameters N, mem0 and inp of rule R3 are data of the loader and stand in Machine/State.lean. -/

namespace Sys2Proof.Config

/-- The greatest memory length N that a launch may have, two to the 63 minus 4 (rule R3; decision D2). -/
def maxLen : Nat := 9223372036854775804

/-- The address of the first instruction of every run (rules R21, R191). -/
def resetVector : Word := 0

/-- What a cell inside memory holds when the sparse list of Machine/State.lean does not list it.
DESIGN CHOICE (log 2), safe: a way of writing memory down, no claim about uninitialised cells, of which there are
none (rule R21). -/
def unlistedCell : Word := 0

end Sys2Proof.Config
end

