-- ==== Sys2Proof/Machine/State.lean ====
section
/-! DEFINITION. The machine's state as plain data, all of rule R10's tuple and the launch parameters of rule R3, and
the state after reset. There are no registers but the instruction pointer (rules R10, R18, R19). -/

namespace Sys2Proof.Machine

/-- The memory: N cells, 0 to len - 1, each one word (rules R3, R12, R30, R38).
The cells are held as (address, value) pairs, addresses strictly rising, all below len, and no pair with the value
Config.unlistedCell, which every cell below len that is not listed holds (log 2). -/
structure Memory where
  /-- N, the number of cells; constant during a run (rules R3, R12). -/
  len : Nat
  cells : List (Nat × Word)
deriving DecidableEq, Repr

/-- The addresses of the listed cells rise strictly. -/
def Memory.rising : List (Nat × Word) → Bool
  | [] => true
  | c :: rest => rest.all (fun d => decide (c.1 < d.1)) && Memory.rising rest

/-- The canonical form: addresses strictly rising and below N, and no cell listed that holds Config.unlistedCell. -/
def Memory.wf (m : Memory) : Bool :=
  Memory.rising m.cells && m.cells.all (fun c => decide (c.1 < m.len) && decide (c.2 ≠ Config.unlistedCell))

/-- The run status (rule R16). -/
inductive Status where
  | running | halted | faulted
deriving DecidableEq, Repr

/-- The three fatal conditions (rules R160, R161). -/
inductive FatalKind where
  | inputExhausted | unknownOpcode | outOfBounds
deriving DecidableEq, Repr

/-- The fault record (rules R17, R161). The spec's pair (opv, opc) is one optional opcode, as
93_implementation_defined.md U9 asks: none is opv = 0. -/
structure FaultRecord where
  kind : FatalKind
  ip : Word
  opc : Option Int
deriving DecidableEq, Repr

/-- Everything the spec gives the machine (rules R3, R10). -/
structure State where
  /-- The instruction pointer, any s64 (rule R11). -/
  ip : Word
  /-- The memory and its length N (rule R12). -/
  mem : Memory
  /-- The input sequence, supplied whole before the run and constant during it; L is its length (rules R3, R13). -/
  inp : List Word
  /-- The input cursor, the number of input values consumed so far (rule R14). -/
  cur : Nat
  /-- The output sequence, oldest first (rule R15). -/
  out : List Word
  /-- How the run stands (rule R16). -/
  status : Status
  /-- The fault record, none until a fatal condition occurs (rule R17). -/
  fault : Option FaultRecord
deriving DecidableEq, Repr

/-- The reasons a step could stop outside the spec's own transitions. There is none: the spec's fatal conditions are
transitions to FAULTED (rule R166, Machine/Ops.lean State.raise), so this closed type has no constructor. -/
inductive Fault where
deriving DecidableEq, Repr

/-- The reasons for which an instruction could be given no meaning. -/
inductive Refusal where
  /-- An instruction of the table without a meaning; only an arm of exec would raise it, and none does. Safe. -/
  | notModelled (mnemonic : String)
deriving DecidableEq, Repr

/-- What the loader supplies before reset is released (rules R3, R193): N and mem0 together as a memory, and the input
sequence. -/
structure Launch where
  mem0 : Memory
  inp : List Word
deriving DecidableEq, Repr

/-- The launches rule R3 admits: N at most two to the 63 minus 4, and mem0 in the canonical form of this file. -/
def Launch.wf (l : Launch) : Bool := l.mem0.wf && decide (l.mem0.len ≤ Config.maxLen)

/-- The state after reset with the given launch parameters (rules R21, R190). -/
def State.ofLaunch (l : Launch) : State :=
  { ip := Config.resetVector
    mem := l.mem0
    inp := l.inp
    cur := 0
    out := []
    status := .running
    fault := none }

/-- Reset applied in any state: it leaves nothing of the run before it (rule R192). -/
def State.resetBy (l : Launch) (_s : State) : State := State.ofLaunch l

/-- The launch with no program and no input: N = 0 (rules R3, R193). -/
def Launch.nothing : Launch := { mem0 := { len := 0, cells := [] }, inp := [] }

/-- The machine right after reset, with nothing loaded. Every field that is not a launch parameter has the value of
rule R21; the launch parameters are those of the empty launch, DESIGN CHOICE (log 1), unsafe. -/
def State.reset : State := State.ofLaunch Launch.nothing

end Sys2Proof.Machine
end

