-- ==== Sys2Proof/Machine/Ops.lean ====
section
/-! DEFINITION. The named operations over the state: memory, the instruction pointer, the I/O channels, halting, and
raising a fatal condition. Every read and write of the state by an instruction goes through these. -/

namespace Sys2Proof.Machine

/-! ### Memory -/

/-- The address is a cell number, 0 to N - 1 (rule R32). -/
abbrev Memory.InBounds (m : Memory) (a : Int) : Prop := 0 ≤ a ∧ a < (m.len : Int)

/-- The value listed for an address, or the value of an unlisted cell. -/
def Memory.lookup : List (Nat × Word) → Nat → Word
  | [], _ => Config.unlistedCell
  | c :: rest, a => if c.1 = a then c.2 else Memory.lookup rest a

/-- The list with one pair put before the first greater address. -/
def Memory.insertCell (a : Nat) (v : Word) : List (Nat × Word) → List (Nat × Word)
  | [] => [(a, v)]
  | c :: rest => if a < c.1 then (a, v) :: c :: rest else c :: Memory.insertCell a v rest

/-- The list in which an address holds a value and every other address what it held before. -/
def Memory.setCell (cells : List (Nat × Word)) (a : Nat) (v : Word) : List (Nat × Word) :=
  let others := cells.filter (fun c => decide (c.1 ≠ a))
  if v = Config.unlistedCell then others else Memory.insertCell a v others

/-- The cell at an address, and nothing where the address is out of bounds: the access is not made (rules R32, R33). -/
def Memory.read (m : Memory) (a : Int) : Option Word :=
  if m.InBounds a then some (Memory.lookup m.cells a.toNat) else none

/-- MemWrite: one cell replaced, the others and N unchanged (rules R12, R36). A write out of bounds is suppressed
(rule R33); no instruction issues one, since WriteTarget has checked the address (rule R81). -/
def Memory.write (m : Memory) (a : Int) (v : Word) : Memory :=
  if m.InBounds a then { m with cells := Memory.setCell m.cells a.toNat v } else m

/-! ### The instruction pointer -/

/-- The address of parameter slot i, ip + i, as an integer (rules R57, R80). -/
def State.slot (s : State) (i : Nat) : Int := s.ip.toInt + (i : Int)

/-- Fetch: the cell at ip, nothing where ip is out of bounds (rule R93). -/
def State.fetch (s : State) : Option Word := s.mem.read s.ip.toInt

/-- The fixed increment of ip by an instruction's width (rules R11, R96). -/
def State.advance (s : State) (width : Nat) : State :=
  { s with ip := BitVec.ofInt 64 (s.ip.toInt + (width : Int)) }

/-- A jump: ip takes the target verbatim, with no check (rules R11, R97). -/
def State.jump (s : State) (target : Word) : State := { s with ip := target }

/-! ### Results and channels -/

/-- The one memory write of an instruction, at a destination WriteTarget returned (rules R81, R94). -/
def State.store (s : State) (dest v : Word) : State := { s with mem := s.mem.write dest.toInt v }

/-- The input value a take would yield, nothing when the input is exhausted (rules R14, R103). -/
def State.nextInput (s : State) : Option Word := s.inp[s.cur]?

/-- The cursor's advance of a take (rules R14, R103). -/
def State.consumeInput (s : State) : State := { s with cur := s.cur + 1 }

/-- Emit: the value appended to the output sequence; it always succeeds (rules R15, R103). -/
def State.emit (s : State) (v : Word) : State := { s with out := s.out ++ [v] }

/-! ### The two ends of a run -/

/-- The normal end of a run: status HALTED, and ip stays at the HLT word (rules R16, R150). -/
def State.halt (s : State) : State := { s with status := .halted }

/-- Taking a fatal condition: status and fault are written and nothing else, so a raise in any phase leaves memory, ip,
cursor and output as they were before the step (rules R17, R94, R161, R166). opc is none for a fetch out of bounds.
There is no return from it: FAULTED is left only by reset, State.resetBy (rule R169). -/
def State.raise (s : State) (kind : FatalKind) (opc : Option Int) : State :=
  { s with status := .faulted, fault := some { kind := kind, ip := s.ip, opc := opc } }

/-! ### Loading, from outside the machine -/

/-- The cells written one after another from an address up, as a loader does before the run (rule R193). -/
def Memory.load (m : Memory) (a : Nat) : List Word → Memory
  | [] => m
  | v :: rest => Memory.load { m with cells := Memory.setCell m.cells a v } (a + 1) rest

/-- The memory whose cells are exactly the given values, cell 0 first (rules R12, R193). -/
def Memory.ofList (vs : List Word) : Memory := Memory.load { len := vs.length, cells := [] } 0 vs

/-- Where the next fetch can be given four cells: at ip, unless ip is negative or so high that no admitted memory could
hold four cells there, and then at the reset vector. -/
def State.loadAddress (s : State) : Nat :=
  if 0 ≤ s.ip.toInt ∧ s.ip.toInt + 4 ≤ (Config.maxLen : Int) then s.ip.toInt.toNat else Config.resetVector.toNat

/-- The state in which the next step fetches the first of the given cells: the cells stand in memory from that address
up, memory is long enough to hold them, and the machine runs. Nothing else changes. It stands for a loader, no step of
the machine (log 3). -/
def State.loadAtFetch (s : State) (vs : List Word) : State :=
  { s with
    ip := BitVec.ofNat 64 s.loadAddress
    mem := Memory.load { s.mem with len := max s.mem.len (s.loadAddress + vs.length) } s.loadAddress vs
    status := .running
    fault := none }

end Sys2Proof.Machine
end

