-- ==== Sys2Proof/Machine/Operands.lean ====
section
/-! DEFINITION. The Addressing Resolver block (41_resolver.md): Read and WriteTarget, and the two shapes of instruction
that the arms share. Operands are resolved eagerly and in parameter order before anything is written
(rules R94, R95). -/

namespace Sys2Proof.Machine

/-- Read(m, a): the cell at the slot for immediate, the cell it points to for positional; nothing where an address is
out of bounds, the slot first and then the pointer (rules R80, R82, R83). -/
def readOperand (m : Mode) (a : Int) (mem : Memory) : Option Word :=
  match mem.read a with
  | none => none
  | some v =>
    match m with
    | .imm => some v
    | .pos => mem.read v.toInt

/-- WriteTarget(a): the cell at the slot as the destination address, which must be in bounds; there is no mode
(rules R81, R82, R83). -/
def writeTarget (a : Int) (mem : Memory) : Option Word :=
  match mem.read a with
  | none => none
  | some d => if mem.InBounds d.toInt then some d else none

/-- The operand of parameter i, read in mode m (rule R84). -/
def State.operand (s : State) (m : Mode) (i : Nat) : Option Word := readOperand m (s.slot i) s.mem

/-- The destination that parameter i gives (rule R84). -/
def State.destination (s : State) (i : Nat) : Option Word := writeTarget (s.slot i) s.mem

/-- The shape of ADD, MUL, LT and EQ: two operands, a result of both, and one cell written at the destination of
parameter 3 (rules R95, R110, R111, R140, R141). -/
def binaryToMemory (opc : Int) (f : Word → Word → Word) (m1 m2 : Mode) (s : State) : State :=
  match s.operand m1 1 with
  | none => s.raise .outOfBounds (some opc)
  | some p1 =>
    match s.operand m2 2 with
    | none => s.raise .outOfBounds (some opc)
    | some p2 =>
      match s.destination 3 with
      | none => s.raise .outOfBounds (some opc)
      | some dest => (s.store dest (f p1 p2)).advance Format.f3.length

/-- The shape of JT and JF: both operands are resolved whether or not the jump is taken; the target is not checked
(rules R95, R130, R131). -/
def conditionalJump (opc : Int) (taken : Word → Bool) (m1 m2 : Mode) (s : State) : State :=
  match s.operand m1 1 with
  | none => s.raise .outOfBounds (some opc)
  | some p1 =>
    match s.operand m2 2 with
    | none => s.raise .outOfBounds (some opc)
    | some p2 => if taken p1 then s.jump p2 else s.advance Format.f2.length

end Sys2Proof.Machine
end

