-- ==== Sys2Proof/Machine/Arithmetic.lean ====
section
/-! DEFINITION. The meanings of ADD and MUL (43_arithmetic.md). -/

namespace Sys2Proof.Machine

/-- wrap64: the s64 congruent to an integer modulo two to the 64 (00_scope.md section 5.1; rule R112, decision D6). -/
def wrap64 (v : Int) : Word := BitVec.ofInt 64 v

/-- The exact sum in Z, then wrapped (rules R110, R112). -/
def sumCells (p q : Word) : Word := wrap64 (p.toInt + q.toInt)

/-- The exact signed product in Z, then wrapped (rules R111, R112). -/
def productCells (p q : Word) : Word := wrap64 (p.toInt * q.toInt)

/-- ADD (rule R110). -/
def execAdd (m1 m2 : Mode) (s : State) : Host.Outcome State Fault Refusal :=
  .next (binaryToMemory 1 sumCells m1 m2 s)

/-- MUL (rule R111). -/
def execMul (m1 m2 : Mode) (s : State) : Host.Outcome State Fault Refusal :=
  .next (binaryToMemory 2 productCells m1 m2 s)

end Sys2Proof.Machine
end

