-- ==== Sys2Proof/Machine/Flags.lean ====
section
/-! DEFINITION. The machine has no flags and no condition codes (rule R18). In their place it has three tests on cell
values, and the cell that a comparison writes its answer into (rules R112, R142). -/

namespace Sys2Proof.Machine

/-- The test against zero of JT and JF: every value but 0 is true, negative values included (rules R112, R130). -/
def nonZero (p : Word) : Bool := decide (p.toInt ≠ 0)

/-- Signed less-than on the integers denoted, not made by subtracting (rules R112, R140). -/
def lessThan (p q : Word) : Bool := decide (p.toInt < q.toInt)

/-- Identity of the two 64-bit values (rules R112, R141). -/
def equalCells (p q : Word) : Bool := decide (p = q)

/-- The answer of a comparison as a cell: exactly 1 or exactly 0 (rules R140, R141, R142). -/
def truthCell (b : Bool) : Word := if b then 1 else 0

end Sys2Proof.Machine
end

