-- ==== Sys2Proof/Machine/Compare.lean ====
section
/-! DEFINITION. The meanings of LT and EQ (46_compare.md). -/

namespace Sys2Proof.Machine

/-- LT: 1 or 0 into the destination, by signed strict comparison (rule R140). -/
def execLt (m1 m2 : Mode) (s : State) : Host.Outcome State Fault Refusal :=
  .next (binaryToMemory 7 (fun p q => truthCell (lessThan p q)) m1 m2 s)

/-- EQ: 1 or 0 into the destination, by equality of the cells (rule R141). -/
def execEq (m1 m2 : Mode) (s : State) : Host.Outcome State Fault Refusal :=
  .next (binaryToMemory 8 (fun p q => truthCell (equalCells p q)) m1 m2 s)

end Sys2Proof.Machine
end

