-- ==== Sys2Proof/Machine/Halt.lean ====
section
/-! DEFINITION. The meanings of HLT and of every illegal word (47_halt.md). -/

namespace Sys2Proof.Machine

/-- HLT: status HALTED and nothing else (rule R150). -/
def execHlt (s : State) : Host.Outcome State Fault Refusal := .next s.halt

/-- An illegal word: UnknownOpcode with the decoded opcode, before any parameter slot is looked at (rules R151, R163). -/
def execIllegal (opc : Int) (s : State) : Host.Outcome State Fault Refusal :=
  .next (s.raise .unknownOpcode (some opc))

end Sys2Proof.Machine
end

