-- ==== Sys2Proof/Machine/InputOutput.lean ====
section
/-! DEFINITION. The meanings of IN and OUT (44_io.md). -/

namespace Sys2Proof.Machine

/-- IN: the exhausted input is tested first, before the destination is resolved; on any fatal condition no value is
consumed (rules R120, R162, R168). -/
def execIn (s : State) : Host.Outcome State Fault Refusal :=
  match s.nextInput with
  | none => .next (s.raise .inputExhausted (some 3))
  | some v =>
    match s.destination 1 with
    | none => .next (s.raise .outOfBounds (some 3))
    | some dest => .next ((s.store dest v).consumeInput.advance Format.f1w.length)

/-- OUT: the operand is appended to the output sequence (rule R121). -/
def execOut (m1 : Mode) (s : State) : Host.Outcome State Fault Refusal :=
  match s.operand m1 1 with
  | none => .next (s.raise .outOfBounds (some 4))
  | some p1 => .next ((s.emit p1).advance Format.f1r.length)

end Sys2Proof.Machine
end

