-- ==== Sys2Proof/Machine/Jumps.lean ====
section
/-! DEFINITION. The meanings of JT and JF (45_jumps.md). -/

namespace Sys2Proof.Machine

/-- JT: ip takes p2 when p1 is not 0, else ip + 3 (rule R130). -/
def execJt (m1 m2 : Mode) (s : State) : Host.Outcome State Fault Refusal :=
  .next (conditionalJump 5 nonZero m1 m2 s)

/-- JF: ip takes p2 when p1 is 0, else ip + 3 (rule R131). -/
def execJf (m1 m2 : Mode) (s : State) : Host.Outcome State Fault Refusal :=
  .next (conditionalJump 6 (fun p => !nonZero p) m1 m2 s)

end Sys2Proof.Machine
end

