-- ==== Sys2Proof/Machine/Dispatch.lean ====
section
/-! DEFINITION. The Execution Dispatcher's closed case over the instructions, one arm each (rule R92). -/

namespace Sys2Proof.Machine

def exec (i : Instr) (s : State) : Host.Outcome State Fault Refusal :=
  match i with
  | .add m1 m2 => Sys2Proof.Machine.execAdd m1 m2 s
  | .mul m1 m2 => Sys2Proof.Machine.execMul m1 m2 s
  | .inp => Sys2Proof.Machine.execIn s
  | .out m1 => Sys2Proof.Machine.execOut m1 s
  | .jt m1 m2 => Sys2Proof.Machine.execJt m1 m2 s
  | .jf m1 m2 => Sys2Proof.Machine.execJf m1 m2 s
  | .lt m1 m2 => Sys2Proof.Machine.execLt m1 m2 s
  | .eq m1 m2 => Sys2Proof.Machine.execEq m1 m2 s
  | .hlt => Sys2Proof.Machine.execHlt s
  | .illegal opc => Sys2Proof.Machine.execIllegal opc s

end Sys2Proof.Machine
end

