-- ==== Sys2Proof/Machine/Step.lean ====
section
/-! DEFINITION. One step of the machine: fetch, decode, dispatch (rule R92), and the state in which the next step
fetches a given instruction. -/

namespace Sys2Proof.Machine

/-- Step. While the status is RUNNING it executes exactly one instruction (rule R92); a fetch out of bounds raises
OutOfBounds with no opcode (rule R93). Once the run has ended the dispatcher changes nothing, which is written here as
a next state equal to the present one (rule R91; log 4). -/
def step (s : State) : Host.Outcome State Fault Refusal :=
  match s.status with
  | .halted => .next s
  | .faulted => .next s
  | .running =>
    match s.fetch with
    | none => .next (s.raise .outOfBounds none)
    | some w => exec (decode w) s

/-- The state in which the very next step runs the instruction given as a number in the opcode table's numbering, its
operand words zero above nbits. Programs are loaded from outside the machine (rule R193), and this stands for that load
(log 3). -/
def State.withFetchWord (s : State) (nbits w : Nat) : State := s.loadAtFetch (tableCells nbits w)

end Sys2Proof.Machine
end

