-- ==== Sys2Proof/Machine/Assembly.lean ====
section
/-! DEFINITION. The assembly notation of rule R62 and what it assembles to: canonical words (rule R59) and parameter
cells (rule R57). It is a notation for writing programs down, no part of the hardware (decision D16); a label is a
number here. -/

namespace Sys2Proof.Machine

/-- The value of a parameter cell: written out, or the address a label stands for. -/
inductive CellValue where
  | lit (v : Word)
  | label (n : Nat)
deriving DecidableEq, Repr

/-- A read operand: immediate (the mark for a value) or positional (the mark for an address) (rule R62). -/
inductive ReadOperand where
  | imm (v : CellValue)
  | pos (v : CellValue)
deriving DecidableEq, Repr

/-- One item of a listing: an instruction, a literal cell, or a label for the address of the next cell (rule R62). -/
inductive AsmItem where
  | add (a b : ReadOperand) (c : CellValue)
  | mul (a b : ReadOperand) (c : CellValue)
  | inp (c : CellValue)
  | out (a : ReadOperand)
  | jt (a b : ReadOperand)
  | jf (a b : ReadOperand)
  | lt (a b : ReadOperand) (c : CellValue)
  | eq (a b : ReadOperand) (c : CellValue)
  | hlt
  | data (v : CellValue)
  | label (n : Nat)
deriving DecidableEq, Repr

/-- The mode an operand is written in. -/
def operandMode : ReadOperand → Mode
  | .imm _ => .imm
  | .pos _ => .pos

/-- The value an operand's parameter cell holds. -/
def operandValue : ReadOperand → CellValue
  | .imm v => v
  | .pos v => v

/-- The instruction an item stands for, none for data and labels. -/
def itemInstr : AsmItem → Option Instr
  | .add a b _ => some (.add (operandMode a) (operandMode b))
  | .mul a b _ => some (.mul (operandMode a) (operandMode b))
  | .inp _ => some .inp
  | .out a => some (.out (operandMode a))
  | .jt a b => some (.jt (operandMode a) (operandMode b))
  | .jf a b => some (.jf (operandMode a) (operandMode b))
  | .lt a b _ => some (.lt (operandMode a) (operandMode b))
  | .eq a b _ => some (.eq (operandMode a) (operandMode b))
  | .hlt => some .hlt
  | .data _ => none
  | .label _ => none

/-- The cells an item occupies, as values: the canonical word and the parameters in order (rules R57, R59). -/
def itemValues (item : AsmItem) : List CellValue :=
  let word := ((itemInstr item).map (fun i => CellValue.lit (encode i))).toList
  match item with
  | .add a b c => word ++ [operandValue a, operandValue b, c]
  | .mul a b c => word ++ [operandValue a, operandValue b, c]
  | .inp c => word ++ [c]
  | .out a => word ++ [operandValue a]
  | .jt a b => word ++ [operandValue a, operandValue b]
  | .jf a b => word ++ [operandValue a, operandValue b]
  | .lt a b c => word ++ [operandValue a, operandValue b, c]
  | .eq a b c => word ++ [operandValue a, operandValue b, c]
  | .hlt => word
  | .data v => [v]
  | .label _ => []

/-- The address a label stands for in a listing that begins at the given address, none where it is not defined. -/
def labelAddress (n : Nat) : Nat → List AsmItem → Option Nat
  | _, [] => none
  | a, item :: rest => if item = .label n then some a else labelAddress n (a + (itemValues item).length) rest

/-- A cell value with its label resolved. -/
def cellOf (items : List AsmItem) : CellValue → Option Word
  | .lit v => some v
  | .label n => (labelAddress n 0 items).map (BitVec.ofNat 64)

/-- The memory cells a listing assembles to, cell 0 first; none where a label is used and not defined. -/
def assemble (items : List AsmItem) : Option (List Word) :=
  (items.flatMap itemValues).mapM (cellOf items)

end Sys2Proof.Machine
end

