-- ==== Sys2Proof/Machine/Phases.lean ====
section
/-! DEFINITION. The hardware view of one step (42_dispatcher.md section 6): the latches of rule R20, the five phases of
rule R102, and the transactions on the memory ports and the channels (rules R37, R86, R104, R196). The latches are no
part of State (rule R20; 93_implementation_defined.md U10): a step by phases is given arbitrary latch contents.
The architectural meaning is Machine/Step.lean; this file is a second description of it. -/

namespace Sys2Proof.Machine

/-- The latches, contents at reset and between instructions unspecified (rule R20). -/
structure Latches where
  ir : Word
  opc : Int
  m1 : Mode
  m2 : Mode
  m3 : Mode
  p1 : Word
  p2 : Word
  dest : Word
  inv : Word
deriving DecidableEq, Repr

/-- The transactions of rule R104 on the memory ports and the two channels. -/
inductive Transaction where
  /-- MemRead(a, 1): mrd_addr, and the cell received on mrd_data. -/
  | memRead (a : Int) (v : Word)
  /-- MemWrite(a, 1, v): mwr_addr and mwr_data. -/
  | memWrite (a : Int) (v : Word)
  /-- in_take, with the value of in_data that is taken; carrying it here is DESIGN CHOICE (log 13). -/
  | inTake (v : Word)
  /-- out_push, with out_data. -/
  | outPush (v : Word)
deriving DecidableEq, Repr

/-- What a phase leaves: the latches, the transactions it made in order, and the fatal condition it raised. -/
structure PhaseResult where
  latches : Latches
  log : List Transaction
  raised : Option FatalKind
deriving DecidableEq, Repr

/-- What the EXECUTE phase hands to COMMIT: the writes of the arm (rule R94). -/
structure Commit where
  write : Option (Word × Word)
  take : Bool
  push : Option Word
  ip : Word
  halt : Bool
deriving DecidableEq, Repr

/-- The next phase, run only when nothing has been raised. -/
def PhaseResult.andThen (r : PhaseResult) (next : Latches → PhaseResult) : PhaseResult :=
  match r.raised with
  | some _ => r
  | none =>
    let r' := next r.latches
    { r' with log := r.log ++ r'.log }

/-- FETCH: the bounds check of ip, then IR (rules R93, R102). -/
def fetchPhase (s : State) (l : Latches) : PhaseResult :=
  match s.fetch with
  | none => { latches := l, log := [], raised := some .outOfBounds }
  | some w => { latches := { l with ir := w }, log := [.memRead s.ip.toInt w], raised := none }

/-- DECODE: the decoder's four outputs latched and the arm selected by the opcode (rules R70, R102, R151). -/
def decodePhase (l : Latches) : PhaseResult :=
  let d := decodeWord l.ir
  { latches := { l with opc := d.opc, m1 := d.m1, m2 := d.m2, m3 := d.m3 }
    log := []
    raised := if d.opc ∈ legalOpcodes then none else some .unknownOpcode }

/-- The memory reads of one READ call, each with the cell it receives: none when the slot check fails, the slot alone for
immediate or when the pointer check fails, the slot and the pointed cell otherwise (rules R80, R86). -/
def readTransactions (m : Mode) (a : Int) (mem : Memory) : List Transaction :=
  match mem.read a with
  | none => []
  | some v =>
    match m with
    | .imm => [.memRead a v]
    | .pos =>
      match mem.read v.toInt with
      | none => [.memRead a v]
      | some p => [.memRead a v, .memRead v.toInt p]

/-- The memory reads of one WTARGET call: the slot with the cell received, none when its check fails (rules R81, R86). -/
def targetTransactions (a : Int) (mem : Memory) : List Transaction :=
  match mem.read a with
  | none => []
  | some d => [.memRead a d]

/-- The mode latch of a read parameter: M1 for parameter 1 and M2 for parameter 2 (rule R84). -/
def Latches.modeOf (l : Latches) (i : Nat) : Mode := if i = 1 then l.m1 else l.m2

/-- The operand latch of a read parameter: P1 or P2 (rules R20, R84). -/
def Latches.setOperand (l : Latches) (i : Nat) (v : Word) : Latches :=
  if i = 1 then { l with p1 := v } else { l with p2 := v }

/-- One parameter resolved into its latch (rules R84, R102). -/
def resolveParam (s : State) (i : Nat) (r : Role) (l : Latches) : PhaseResult :=
  match r with
  | .read =>
    let log := readTransactions (l.modeOf i) (s.slot i) s.mem
    match s.operand (l.modeOf i) i with
    | none => { latches := l, log := log, raised := some .outOfBounds }
    | some v => { latches := l.setOperand i v, log := log, raised := none }
  | .write =>
    let log := targetTransactions (s.slot i) s.mem
    match s.destination i with
    | none => { latches := l, log := log, raised := some .outOfBounds }
    | some d => { latches := { l with dest := d }, log := log, raised := none }

/-- The parameters from number i on, in parameter order (rule R95). -/
def resolveParams (s : State) : Nat → List Role → Latches → PhaseResult
  | _, [], l => { latches := l, log := [], raised := none }
  | i, r :: rest, l => (resolveParam s i r l).andThen (resolveParams s (i + 1) rest)

/-- The exhausted-input test of IN at the head of OPERAND; the value is looked at and not yet taken (rules R102, R196). -/
def inputPhase (s : State) (l : Latches) : PhaseResult :=
  if l.opc = 3 then
    match s.nextInput with
    | none => { latches := l, log := [], raised := some .inputExhausted }
    | some v => { latches := { l with inv := v }, log := [], raised := none }
  else { latches := l, log := [], raised := none }

/-- OPERAND: the input test, then the parameters of the opcode's format (rules R84, R95, R102). -/
def operandPhase (s : State) (l : Latches) : PhaseResult :=
  (inputPhase s l).andThen (resolveParams s 1 (((formatOfOpcode l.opc).map Format.params).getD []))

/-- The value of ip after the fixed increment of the opcode (rule R96). -/
def incrementedIp (s : State) (opc : Int) : Word :=
  match formatOfOpcode opc with
  | none => s.ip
  | some f => BitVec.ofInt 64 (s.ip.toInt + (f.length : Int))

/-- EXECUTE: the writes of the arm from the latches alone, and ip (rules R96, R102). It raises nothing. -/
def executePhase (s : State) (l : Latches) : Commit :=
  { write :=
      if l.opc = 1 then some (l.dest, sumCells l.p1 l.p2)
      else if l.opc = 2 then some (l.dest, productCells l.p1 l.p2)
      else if l.opc = 3 then some (l.dest, l.inv)
      else if l.opc = 7 then some (l.dest, truthCell (lessThan l.p1 l.p2))
      else if l.opc = 8 then some (l.dest, truthCell (equalCells l.p1 l.p2))
      else none
    take := decide (l.opc = 3)
    push := if l.opc = 4 then some l.p1 else none
    ip :=
      if l.opc = 99 then s.ip
      else if l.opc = 5 ∧ nonZero l.p1 then l.p2
      else if l.opc = 6 ∧ !nonZero l.p1 then l.p2
      else incrementedIp s l.opc
    halt := decide (l.opc = 99) }

/-- COMMIT: all the writes of the arm together (rules R94, R102). -/
def commitPhase (s : State) (c : Commit) : State :=
  { s with
    mem := (match c.write with
      | none => s.mem
      | some (d, v) => s.mem.write d.toInt v)
    cur := if c.take then s.cur + 1 else s.cur
    out := (match c.push with
      | none => s.out
      | some v => s.out ++ [v])
    ip := c.ip
    status := if c.halt then .halted else s.status }

/-- The transactions of COMMIT: at most one memory write, one take, one push (rules R37, R104). The spec makes them
together; that the list puts the take after the write is DESIGN CHOICE (log 13). -/
def commitTransactions (c : Commit) (inv : Word) : List Transaction :=
  (match c.write with
    | none => []
    | some (d, v) => [.memWrite d.toInt v])
  ++ (if c.take then [.inTake inv] else [])
  ++ (match c.push with
    | none => []
    | some v => [.outPush v])

/-- The phases up to OPERAND. -/
def phasesBeforeExecute (s : State) (l : Latches) : PhaseResult :=
  ((fetchPhase s l).andThen decodePhase).andThen (operandPhase s)

/-- One step by phases: the state after it and the transactions it made, in order. A raise goes straight to a commit of
status and fault, with the opcode when a word was fetched (rules R102, R161). With the run ended there is no transaction
and no change (rules R91, R196). -/
def stepByPhases (l : Latches) (s : State) : State × List Transaction :=
  match s.status with
  | .halted => (s, [])
  | .faulted => (s, [])
  | .running =>
    let r := phasesBeforeExecute s l
    match r.raised with
    | some k => (s.raise k (if s.fetch = none then none else some (decodeWord r.latches.ir).opc), r.log)
    | none =>
      let c := executePhase s r.latches
      (commitPhase s c, r.log ++ commitTransactions c r.latches.inv)

end Sys2Proof.Machine
end

