-- ==== Sys2Proof/Machine/Ports.lean ====
section
/-! DEFINITION. What stands at the core's ports (rules R76, R86, R104) and what the host reads when a run has ended
(rule R101). Ports carry events and no timing (rules R104, R198); the transactions a step makes are in
Machine/Phases.lean. Where the spec calls a port's value meaningless, the view gives none. -/

namespace Sys2Proof.Machine

/-- The status codes (rules R16, R104). -/
def Status.code : Status → BitVec 2
  | .running => 0
  | .halted => 1
  | .faulted => 2

/-- The fault kind codes (rules R17, R161). -/
def FatalKind.code : FatalKind → BitVec 2
  | .inputExhausted => 1
  | .unknownOpcode => 2
  | .outOfBounds => 3

/-- The decoder's outputs: dec_opc, 8 bits two's complement, and one bit a mode, 1 for IMM (rule R76). -/
structure DecoderPorts where
  decOpc : BitVec 8
  decM1 : BitVec 1
  decM2 : BitVec 1
  decM3 : BitVec 1
deriving DecidableEq, Repr

/-- A mode as one bit (rules R72, R76). -/
def modeBit : Mode → BitVec 1
  | .pos => 0
  | .imm => 1

/-- The decoder block as hardware: a function of dec_word alone (rules R74, R76). -/
def decoderPorts (w : Word) : DecoderPorts :=
  { decOpc := BitVec.ofInt 8 (decodeWord w).opc
    decM1 := modeBit (decodeWord w).m1
    decM2 := modeBit (decodeWord w).m2
    decM3 := modeBit (decodeWord w).m3 }

/-- The resolver's outputs: res_value, none when res_oob is 1 (rule R86). -/
structure ResolverPorts where
  resValue : Option Word
  resOob : BitVec 1
deriving DecidableEq, Repr

/-- The resolver block as hardware: res_op READ or WTARGET, res_mode used only for READ, the slot address, and the memory
with its length as res_len (rule R86). -/
def resolverPorts (op : Role) (mode : Mode) (addr : Word) (mem : Memory) : ResolverPorts :=
  let r := match op with
    | .read => readOperand mode addr.toInt mem
    | .write => writeTarget addr.toInt mem
  { resValue := r, resOob := if r = none then 1 else 0 }

/-- The dispatcher's ports that can be read at any time: len, the input channel's offer, status, ip and the fault record
(rule R104). -/
structure CorePorts where
  len : BitVec 64
  inAvail : BitVec 1
  inData : Option Word
  status : BitVec 2
  ip : Word
  faultKind : BitVec 2
  faultIp : Option Word
  faultOpv : Option (BitVec 1)
  faultOpc : Option (BitVec 8)
deriving DecidableEq, Repr

/-- The present port values (rule R104). fault_kind is 0 when there is no fault record. The spec gives fault_ip, fault_opv
and fault_opc for a record alone, and fault_opc for one with an opcode: elsewhere the view gives none, DESIGN CHOICE
(log 13). -/
def State.ports (s : State) : CorePorts :=
  { len := BitVec.ofNat 64 s.mem.len
    inAvail := if s.cur < s.inp.length then 1 else 0
    inData := s.nextInput
    status := s.status.code
    ip := s.ip
    faultKind := (match s.fault with
      | none => 0
      | some r => r.kind.code)
    faultIp := s.fault.map FaultRecord.ip
    faultOpv := s.fault.map (fun r => if r.opc = none then 0 else 1)
    faultOpc := (s.fault.bind FaultRecord.opc).map (BitVec.ofInt 8) }

/-- What a run returns to the host (rule R101). -/
inductive RunResult where
  | halted (out : List Word) (mem : Memory) (ip : Word) (cur : Nat)
  | faulted (fault : Option FaultRecord) (mem : Memory) (out : List Word) (cur : Nat) (ip : Word)
deriving DecidableEq, Repr

/-- The result, once the run has ended; the host reads nothing meaningful before (rules R22, R101). -/
def State.result (s : State) : Option RunResult :=
  match s.status with
  | .running => none
  | .halted => some (.halted s.out s.mem s.ip s.cur)
  | .faulted => some (.faulted s.fault s.mem s.out s.cur s.ip)

end Sys2Proof.Machine
end

