-- ==== Sys2Proof/Safety.lean ====
section
/-! DEFINITION. The terms that claims about this machine use: the invariant of every run, what makes a step fault, when
a step takes a jump, and the end of a run. -/

namespace Sys2Proof.Machine

/-- The next state of an outcome. -/
def nextOf : Host.Outcome State Fault Refusal → Option State
  | .next s => some s
  | .fault _ => none
  | .refused _ => none

/-- The run has ended (rule R91). -/
abbrev State.Ended (s : State) : Prop := s.status ≠ .running

/-- The instruction at ip, none where ip is out of bounds. -/
def State.current (s : State) : Option Instr := s.fetch.map decode

/-- The fault record fits the machine it stands in: its opcode is the one of the word at its ip, none when that ip is out
of bounds, and its kind is one that opcode can raise (rule R161). -/
def FaultRecord.fits (r : FaultRecord) (s : State) : Bool :=
  decide (r.opc = (s.mem.read r.ip.toInt).map (fun w => (decodeWord w).opc)) &&
  (match r.kind with
   | .inputExhausted => decide (r.opc = some 3) && decide (s.cur = s.inp.length)
   | .unknownOpcode => (match r.opc with
      | none => false
      | some o => decide (o ∉ legalOpcodes))
   | .outOfBounds => (match r.opc with
      | none => true
      | some o => decide (1 ≤ o) && decide (o ≤ 8)))

/-- How a run stands agrees with the rest of the state: no fault record unless FAULTED, HALTED only at a HLT word, and
in FAULTED a record whose ip is the machine's ip (rules R17, R150, R161, R166). -/
def State.statusFits (s : State) : Bool :=
  match s.status, s.fault with
  | .running, none => true
  | .halted, none => decide (s.current = some .hlt)
  | .faulted, some r => decide (r.ip = s.ip) && r.fits s
  | .running, some _ => false
  | .halted, some _ => false
  | .faulted, none => false

/-- The invariant of every run: memory is in its canonical form and no longer than rule R3 admits, the cursor is at most
L (rule R14), and the status agrees with the rest. -/
abbrev State.Inv (s : State) : Prop :=
  s.mem.wf = true ∧ s.mem.len ≤ Config.maxLen ∧ s.cur ≤ s.inp.length ∧ s.statusFits = true

/-- A read parameter cannot be resolved: its slot is out of bounds, or it is positional and its pointer is
(rules R82, R164). -/
def State.operandOutOfBounds (s : State) (m : Mode) (i : Nat) : Prop :=
  ¬ s.mem.InBounds (s.slot i) ∨
  (m = .pos ∧ ∃ v, s.mem.read (s.slot i) = some v ∧ ¬ s.mem.InBounds v.toInt)

/-- A write target cannot be resolved: its slot is out of bounds, or its destination is (rules R82, R164). -/
def State.targetOutOfBounds (s : State) (i : Nat) : Prop :=
  ¬ s.mem.InBounds (s.slot i) ∨ ∃ v, s.mem.read (s.slot i) = some v ∧ ¬ s.mem.InBounds v.toInt

/-- Some address of the instruction at ip is out of bounds, by instruction (rule R165). -/
def State.addressOutOfBounds (s : State) : Instr → Prop
  | .add m1 m2 => s.operandOutOfBounds m1 1 ∨ s.operandOutOfBounds m2 2 ∨ s.targetOutOfBounds 3
  | .mul m1 m2 => s.operandOutOfBounds m1 1 ∨ s.operandOutOfBounds m2 2 ∨ s.targetOutOfBounds 3
  | .inp => s.targetOutOfBounds 1
  | .out m1 => s.operandOutOfBounds m1 1
  | .jt m1 m2 => s.operandOutOfBounds m1 1 ∨ s.operandOutOfBounds m2 2
  | .jf m1 m2 => s.operandOutOfBounds m1 1 ∨ s.operandOutOfBounds m2 2
  | .lt m1 m2 => s.operandOutOfBounds m1 1 ∨ s.operandOutOfBounds m2 2 ∨ s.targetOutOfBounds 3
  | .eq m1 m2 => s.operandOutOfBounds m1 1 ∨ s.operandOutOfBounds m2 2 ∨ s.targetOutOfBounds 3
  | .hlt => False
  | .illegal _ => False

/-- The condition of a jump holds on the value of its first operand (rules R130, R131); false of every other
instruction. -/
def State.jumpCondition (s : State) : Instr → Prop
  | .jt m1 _ => ∃ p1, s.operand m1 1 = some p1 ∧ p1 ≠ 0
  | .jf m1 _ => s.operand m1 1 = some 0
  | .add _ _ => False
  | .mul _ _ => False
  | .inp => False
  | .out _ => False
  | .lt _ _ => False
  | .eq _ _ => False
  | .hlt => False
  | .illegal _ => False

/-- The target of a jump, none where its second operand cannot be resolved, which raises and takes no jump
(rules R95, R130, R131), and for every other instruction. -/
def State.jumpTarget (s : State) : Instr → Option Word
  | .jt _ m2 => s.operand m2 2
  | .jf _ m2 => s.operand m2 2
  | .add _ _ => none
  | .mul _ _ => none
  | .inp => none
  | .out _ => none
  | .lt _ _ => none
  | .eq _ _ => none
  | .hlt => none
  | .illegal _ => none

/-- The next step of the state takes a jump: the instruction at ip is JT or JF, its condition holds, and its target can be
resolved. -/
def State.takesJump (s : State) : Prop :=
  ∃ i target, s.current = some i ∧ s.jumpCondition i ∧ s.jumpTarget i = some target

/-- The address of the cell an instruction writes, by the function its meaning uses; none for an instruction that writes
no cell (rules R84, R12). -/
def State.storeTarget (s : State) : Instr → Option Word
  | .add _ _ => s.destination 3
  | .mul _ _ => s.destination 3
  | .inp => s.destination 1
  | .lt _ _ => s.destination 3
  | .eq _ _ => s.destination 3
  | .out _ => none
  | .jt _ _ => none
  | .jf _ _ => none
  | .hlt => none
  | .illegal _ => none

/-- The value a storing instruction writes into its destination, from its operands as the rules give them; none for an
instruction that writes no cell and where an operand cannot be resolved (rules R110, R111, R120, R140, R141). -/
def State.storedValue (s : State) : Instr → Option Word
  | .add m1 m2 => (s.operand m1 1).bind fun p1 => (s.operand m2 2).map fun p2 => BitVec.ofInt 64 (p1.toInt + p2.toInt)
  | .mul m1 m2 => (s.operand m1 1).bind fun p1 => (s.operand m2 2).map fun p2 => BitVec.ofInt 64 (p1.toInt * p2.toInt)
  | .inp => s.inp[s.cur]?
  | .lt m1 m2 => (s.operand m1 1).bind fun p1 => (s.operand m2 2).map fun p2 => if p1.toInt < p2.toInt then 1 else 0
  | .eq m1 m2 => (s.operand m1 1).bind fun p1 => (s.operand m2 2).map fun p2 => if p1 = p2 then 1 else 0
  | .out _ => none
  | .jt _ _ => none
  | .jf _ _ => none
  | .hlt => none
  | .illegal _ => none

/-- The transaction is a memory read. -/
def Transaction.isRead : Transaction → Bool
  | .memRead _ _ => true
  | .memWrite _ _ => false
  | .inTake _ => false
  | .outPush _ => false

/-- The transaction is a memory write. -/
def Transaction.isWrite : Transaction → Bool
  | .memRead _ _ => false
  | .memWrite _ _ => true
  | .inTake _ => false
  | .outPush _ => false

/-- The transaction is a memory access at an address inside memory, or no memory access. -/
def Transaction.inBounds (mem : Memory) : Transaction → Prop
  | .memRead a _ => mem.InBounds a
  | .memWrite a _ => mem.InBounds a
  | .inTake _ => True
  | .outPush _ => True

/-- The state after k steps (rule R91). Steps after the end of the run repeat the last state: DESIGN CHOICE (log 4). -/
def State.after (k : Nat) (s : State) : Option State := nextOf (Host.Core.run Sys2Proof.core k s)

end Sys2Proof.Machine
end

