-- ==== Sys2Proof/Certificates/Slice0/Obligations.lean ====
section
/-! DEFINITION. The statements for the provers. Each says which rule or section of spec/ it formalises; OBLIGATIONS.json
lists them. Where the spec marks a point as its own decision (D<n> of 92_eei_decisions.md) the docstring names it. -/

open Sys2Proof Sys2Proof.Machine

/-! ### The decoder and the encoding -/

/-- Rules R51, R53, R54: for a word that is not negative the opcode is the value modulo 100, the mode digit of parameter
i is floor(value / 10^(i+1)) mod 10, and 1 means immediate and every other digit positional. -/
def Obligations.DecoderReadsDecimalDigits : Prop :=
  ∀ w : Word, 0 ≤ w.toInt →
    (decodeWord w).opc = ((w.toNat % 100 : Nat) : Int) ∧
    ((decodeWord w).m1 = .imm ↔ w.toNat / 100 % 10 = 1) ∧ ((decodeWord w).m1 = .pos ↔ w.toNat / 100 % 10 ≠ 1) ∧
    ((decodeWord w).m2 = .imm ↔ w.toNat / 1000 % 10 = 1) ∧ ((decodeWord w).m2 = .pos ↔ w.toNat / 1000 % 10 ≠ 1) ∧
    ((decodeWord w).m3 = .imm ↔ w.toNat / 10000 % 10 = 1) ∧ ((decodeWord w).m3 = .pos ↔ w.toNat / 10000 % 10 ≠ 1)

/-- 40_decoder.md section 1 and 30_encoding.md section 6 (decision D5): every negative word decodes to a non-positive
opcode that is none of the nine, with three positional modes. -/
def Obligations.NegativeWordsSelectNoInstruction : Prop :=
  ∀ w : Word, w.toInt < 0 →
    decodeWord w = { opc := -((-w.toInt) % 100), m1 := .pos, m2 := .pos, m3 := .pos } ∧
    decode w = .illegal (-((-w.toInt) % 100))

/-- 40_decoder.md section 2, the symmetry of truncated division (decision D5): negating a word negates its opcode and
its three digits. -/
def Obligations.DecodingIsSymmetricInTheSign : Prop :=
  ∀ w : Word, w.toInt ≠ s64Min →
    opcodeDigits (-w).toInt = -opcodeDigits w.toInt ∧
    modeDigit 100 (-w).toInt = -modeDigit 100 w.toInt ∧
    modeDigit 1000 (-w).toInt = -modeDigit 1000 w.toInt ∧
    modeDigit 10000 (-w).toInt = -modeDigit 10000 w.toInt

/-- 40_decoder.md section 2 and 30_encoding.md section 3: only the five low decimal digits of a word that is not negative
matter. -/
def Obligations.OnlyFiveLowDigitsMatter : Prop :=
  ∀ w : Word, 0 ≤ w.toInt → decodeWord w = decodeWord (BitVec.ofNat 64 (w.toNat % 100000))

/-- 40_decoder.md section 2: a word composed of an opcode and three digits decodes to that opcode and the digits'
modes. -/
def Obligations.ComposedWordsDecode : Prop :=
  ∀ o a b c : Nat, o ≤ 99 → a ≤ 9 → b ≤ 9 → c ≤ 9 →
    decodeWord (BitVec.ofNat 64 (o + 100 * a + 1000 * b + 10000 * c)) =
      { opc := (o : Int)
        m1 := if a = 1 then .imm else .pos
        m2 := if b = 1 then .imm else .pos
        m3 := if c = 1 then .imm else .pos }

/-- 30_encoding.md section 3: a mode digit that the instruction does not use may have any value. -/
def Obligations.IgnoredModeDigitsChangeNothing : Prop :=
  ∀ w w' : Word, (decodeWord w).opc = (decodeWord w').opc →
    ((decodeWord w).m1 = (decodeWord w').m1 → (decodeWord w).m2 = (decodeWord w').m2 → decode w = decode w') ∧
    ((decodeWord w).opc = 4 → (decodeWord w).m1 = (decodeWord w').m1 → decode w = decode w') ∧
    ((decodeWord w).opc = 3 ∨ (decodeWord w).opc = 99 ∨ (decodeWord w).opc ∉ legalOpcodes → decode w = decode w')

/-- Rule R52: exactly nine opcode values select an instruction, each with its format, its length and its parameters'
roles; every other value selects none. -/
def Obligations.OpcodeMapIsClosed : Prop :=
  ∀ w : Word,
    ((decodeWord w).opc = 1 → decode w = .add (decodeWord w).m1 (decodeWord w).m2 ∧ (decode w).format = some .f3) ∧
    ((decodeWord w).opc = 2 → decode w = .mul (decodeWord w).m1 (decodeWord w).m2 ∧ (decode w).format = some .f3) ∧
    ((decodeWord w).opc = 3 → decode w = .inp ∧ (decode w).format = some .f1w) ∧
    ((decodeWord w).opc = 4 → decode w = .out (decodeWord w).m1 ∧ (decode w).format = some .f1r) ∧
    ((decodeWord w).opc = 5 → decode w = .jt (decodeWord w).m1 (decodeWord w).m2 ∧ (decode w).format = some .f2) ∧
    ((decodeWord w).opc = 6 → decode w = .jf (decodeWord w).m1 (decodeWord w).m2 ∧ (decode w).format = some .f2) ∧
    ((decodeWord w).opc = 7 → decode w = .lt (decodeWord w).m1 (decodeWord w).m2 ∧ (decode w).format = some .f3) ∧
    ((decodeWord w).opc = 8 → decode w = .eq (decodeWord w).m1 (decodeWord w).m2 ∧ (decode w).format = some .f3) ∧
    ((decodeWord w).opc = 99 → decode w = .hlt ∧ (decode w).format = some .f0) ∧
    ((decodeWord w).opc ∉ [1, 2, 3, 4, 5, 6, 7, 8, 99] →
      decode w = .illegal (decodeWord w).opc ∧ (decode w).format = none) ∧
    Format.params .f3 = [.read, .read, .write] ∧ Format.params .f2 = [.read, .read] ∧
    Format.params .f1w = [.write] ∧ Format.params .f1r = [.read] ∧ Format.params .f0 = [] ∧
    Format.length .f3 = 4 ∧ Format.length .f2 = 3 ∧ Format.length .f1w = 2 ∧ Format.length .f1r = 2 ∧
    Format.length .f0 = 1

/-- 30_encoding.md section 7: decoding the canonical word of a well-formed instruction gives the instruction back, for
every one of the nine instructions and every operand mode. For an illegal word, to which the spec gives no canonical
form, the word encoded is the model's choice (log 11): the cell that holds its opcode. -/
def Obligations.DecodeOfEncodeIsIdentity : Prop :=
  ∀ i : Instr, i.wf = true → decode (encode i) = i

/-- 40_decoder.md section 1: the decoder is total, and what any word decodes to is a well-formed instruction. -/
def Obligations.EveryWordDecodesToWellFormed : Prop :=
  ∀ w : Word, (decode w).wf = true

/-- 40_decoder.md section 2 and 95_test_vectors.md section 2.1, worked values: words written out from the encoding, at
least one for each row of the table, decode to the instructions they stand for. -/
def Obligations.WrittenOutWordsDecode : Prop :=
  decode 1 = .add .pos .pos ∧ decode 11101 = .add .imm .imm ∧ decode 1002 = .mul .pos .imm ∧ decode 103 = .inp ∧
  decode 104 = .out .imm ∧ decode 204 = .out .pos ∧ decode 1005 = .jt .pos .imm ∧ decode 1006 = .jf .pos .imm ∧
  decode 9223372036854775807 = .lt .pos .pos ∧ decode 1108 = .eq .imm .imm ∧ decode 11199 = .hlt ∧
  decode 0 = .illegal 0 ∧ decode 109 = .illegal 9 ∧ decode (BitVec.ofInt 64 (-99)) = .illegal (-99)

/-! ### Memory and the resolver -/

/-- 20_memory.md section 1: an address is in bounds exactly when it is from 0 to N - 1, a negative one is not, and with
N = 0 none is; a read out of bounds is not made and yields no cell (decision D20), and one in bounds yields a cell. -/
def Obligations.AccessibleAddressesAreZeroToLength : Prop :=
  ∀ (m : Memory) (a : Int),
    (m.InBounds a ↔ 0 ≤ a ∧ a < (m.len : Int)) ∧ (a < 0 → ¬ m.InBounds a) ∧ ((m.len : Int) ≤ a → ¬ m.InBounds a) ∧
    (m.len = 0 → ¬ m.InBounds a) ∧ (m.read a = none ↔ ¬ m.InBounds a)

/-- Rules R80 and R81: Read and WriteTarget by cases. A failing check is the result none. -/
def Obligations.ResolverFollowsItsTable : Prop :=
  ∀ (mem : Memory) (a : Int),
    (¬ mem.InBounds a → (∀ m, readOperand m a mem = none) ∧ writeTarget a mem = none) ∧
    (∀ v, mem.read a = some v →
      readOperand .imm a mem = some v ∧
      (mem.InBounds v.toInt →
        (∃ x, mem.read v.toInt = some x ∧ readOperand .pos a mem = some x) ∧ writeTarget a mem = some v) ∧
      (¬ mem.InBounds v.toInt → readOperand .pos a mem = none ∧ writeTarget a mem = none))

/-! ### The results of the instructions -/

/-- 43_arithmetic.md, ADD (decision D6 for sums outside s64): the destination takes the s64 congruent to the exact sum
modulo two to the 64, which is the exact sum when that fits; ip advances by 4; nothing else changes. -/
def Obligations.AddStoresTheWrappedSum : Prop :=
  ∀ (m1 m2 : Mode) (s : State) (p1 p2 d : Word), s.mem.len ≤ Config.maxLen →
    s.operand m1 1 = some p1 → s.operand m2 2 = some p2 → s.destination 3 = some d →
    ∃ (t : State) (r : Word), exec (.add m1 m2) s = .next t ∧ t.mem.read d.toInt = some r ∧
      (r.toInt - (p1.toInt + p2.toInt)) % 18446744073709551616 = 0 ∧
      (s64Min ≤ p1.toInt + p2.toInt → p1.toInt + p2.toInt ≤ s64Max → r.toInt = p1.toInt + p2.toInt) ∧
      t.ip.toInt = s.ip.toInt + 4 ∧ (∀ a, a ≠ d.toInt → t.mem.read a = s.mem.read a) ∧ t.mem.len = s.mem.len ∧
      t.inp = s.inp ∧ t.cur = s.cur ∧ t.out = s.out ∧ t.status = s.status ∧ t.fault = s.fault

/-- 43_arithmetic.md, MUL (decision D6 for products outside s64): as ADD, with the exact signed product. -/
def Obligations.MulStoresTheWrappedProduct : Prop :=
  ∀ (m1 m2 : Mode) (s : State) (p1 p2 d : Word), s.mem.len ≤ Config.maxLen →
    s.operand m1 1 = some p1 → s.operand m2 2 = some p2 → s.destination 3 = some d →
    ∃ (t : State) (r : Word), exec (.mul m1 m2) s = .next t ∧ t.mem.read d.toInt = some r ∧
      (r.toInt - p1.toInt * p2.toInt) % 18446744073709551616 = 0 ∧
      (s64Min ≤ p1.toInt * p2.toInt → p1.toInt * p2.toInt ≤ s64Max → r.toInt = p1.toInt * p2.toInt) ∧
      t.ip.toInt = s.ip.toInt + 4 ∧ (∀ a, a ≠ d.toInt → t.mem.read a = s.mem.read a) ∧ t.mem.len = s.mem.len ∧
      t.inp = s.inp ∧ t.cur = s.cur ∧ t.out = s.out ∧ t.status = s.status ∧ t.fault = s.fault

/-- Rule R140, LT: its encoding, its result by signed strict comparison, and its fatal condition, by which nothing is
written. That a raise shows as status and a fault record is decision D7; what the record holds is
Obligations.UnresolvableOperandRaisesOutOfBounds. -/
def Obligations.LessThanStoresOneOrZero : Prop :=
  (∀ w : Word, (decodeWord w).opc = 7 → decode w = .lt (decodeWord w).m1 (decodeWord w).m2) ∧
  encode (.lt .pos .pos) = 7 ∧ encode (.lt .imm .pos) = 107 ∧ encode (.lt .pos .imm) = 1007 ∧
  encode (.lt .imm .imm) = 1107 ∧
  (∀ (m1 m2 : Mode) (s : State) (p1 p2 d : Word), s.mem.len ≤ Config.maxLen →
    s.operand m1 1 = some p1 → s.operand m2 2 = some p2 → s.destination 3 = some d →
    ∃ t : State, exec (.lt m1 m2) s = .next t ∧
      t.mem.read d.toInt = some (if p1.toInt < p2.toInt then 1 else 0) ∧
      t.ip.toInt = s.ip.toInt + 4 ∧ (∀ a, a ≠ d.toInt → t.mem.read a = s.mem.read a) ∧ t.mem.len = s.mem.len ∧
      t.inp = s.inp ∧ t.cur = s.cur ∧ t.out = s.out ∧ t.status = s.status ∧ t.fault = s.fault) ∧
  (∀ (m1 m2 : Mode) (s : State), s.addressOutOfBounds (.lt m1 m2) →
    ∃ r : FaultRecord, r.kind = .outOfBounds ∧
      exec (.lt m1 m2) s = .next { s with status := .faulted, fault := some r })

/-- Rule R141, EQ: its encoding, its result by equality of the two cells, and its fatal condition, by which nothing is
written. That a raise shows as status and a fault record is decision D7; what the record holds is
Obligations.UnresolvableOperandRaisesOutOfBounds. -/
def Obligations.EqualsStoresOneOrZero : Prop :=
  (∀ w : Word, (decodeWord w).opc = 8 → decode w = .eq (decodeWord w).m1 (decodeWord w).m2) ∧
  encode (.eq .pos .pos) = 8 ∧ encode (.eq .imm .pos) = 108 ∧ encode (.eq .pos .imm) = 1008 ∧
  encode (.eq .imm .imm) = 1108 ∧
  (∀ (m1 m2 : Mode) (s : State) (p1 p2 d : Word), s.mem.len ≤ Config.maxLen →
    s.operand m1 1 = some p1 → s.operand m2 2 = some p2 → s.destination 3 = some d →
    ∃ t : State, exec (.eq m1 m2) s = .next t ∧
      t.mem.read d.toInt = some (if p1.toInt = p2.toInt then 1 else 0) ∧
      t.ip.toInt = s.ip.toInt + 4 ∧ (∀ a, a ≠ d.toInt → t.mem.read a = s.mem.read a) ∧ t.mem.len = s.mem.len ∧
      t.inp = s.inp ∧ t.cur = s.cur ∧ t.out = s.out ∧ t.status = s.status ∧ t.fault = s.fault) ∧
  (∀ (m1 m2 : Mode) (s : State), s.addressOutOfBounds (.eq m1 m2) →
    ∃ r : FaultRecord, r.kind = .outOfBounds ∧
      exec (.eq m1 m2) s = .next { s with status := .faulted, fault := some r })

/-- 44_io.md, IN (decisions D9 and D10): with input left and a resolvable destination the oldest unconsumed value is
stored and consumed and ip advances by 2; with the input exhausted it raises InputExhausted whatever the destination;
with input left and the destination out of bounds it raises OutOfBounds and consumes nothing. -/
def Obligations.InputStoresTheNextValue : Prop :=
  (∀ (s : State) (v d : Word), s.mem.len ≤ Config.maxLen → s.inp[s.cur]? = some v → s.destination 1 = some d →
    ∃ t : State, exec .inp s = .next t ∧ t.mem.read d.toInt = some v ∧ t.cur = s.cur + 1 ∧
      t.ip.toInt = s.ip.toInt + 2 ∧ (∀ a, a ≠ d.toInt → t.mem.read a = s.mem.read a) ∧ t.mem.len = s.mem.len ∧
      t.inp = s.inp ∧ t.out = s.out ∧ t.status = s.status ∧ t.fault = s.fault) ∧
  (∀ s : State, s.cur = s.inp.length →
    exec .inp s =
      .next { s with status := .faulted, fault := some { kind := .inputExhausted, ip := s.ip, opc := some 3 } }) ∧
  (∀ s : State, s.cur < s.inp.length → s.targetOutOfBounds 1 →
    exec .inp s =
      .next { s with status := .faulted, fault := some { kind := .outOfBounds, ip := s.ip, opc := some 3 } })

/-- Rule R121, OUT: its encoding, the value appended to the output sequence and nothing else changed but ip, and its
fatal condition, by which nothing is appended. That a raise shows as status and a fault record is decision D7; what the
record holds is Obligations.UnresolvableOperandRaisesOutOfBounds. -/
def Obligations.OutputAppendsTheOperand : Prop :=
  (∀ w : Word, (decodeWord w).opc = 4 → decode w = .out (decodeWord w).m1) ∧
  encode (.out .pos) = 4 ∧ encode (.out .imm) = 104 ∧
  (∀ (m1 : Mode) (s : State) (p1 : Word), s.mem.len ≤ Config.maxLen → s.operand m1 1 = some p1 →
    ∃ t : State, exec (.out m1) s = .next t ∧ t.out = s.out ++ [p1] ∧ t.ip.toInt = s.ip.toInt + 2 ∧
      t.mem = s.mem ∧ t.inp = s.inp ∧ t.cur = s.cur ∧ t.status = s.status ∧ t.fault = s.fault) ∧
  (∀ (m1 : Mode) (s : State), s.addressOutOfBounds (.out m1) →
    ∃ r : FaultRecord, r.kind = .outOfBounds ∧
      exec (.out m1) s = .next { s with status := .faulted, fault := some r })

/-- 45_jumps.md, JT and JF (decision D11: both operands are resolved first): ip takes the second operand verbatim when
the condition holds and advances by 3 otherwise; memory, the channels and the status are not changed. -/
def Obligations.JumpsFollowTheirCondition : Prop :=
  ∀ (m1 m2 : Mode) (s : State) (p1 p2 : Word), s.mem.len ≤ Config.maxLen →
    s.operand m1 1 = some p1 → s.operand m2 2 = some p2 →
    (∃ t : State, exec (.jt m1 m2) s = .next t ∧ (p1.toInt ≠ 0 → t.ip = p2) ∧
      (p1.toInt = 0 → t.ip.toInt = s.ip.toInt + 3) ∧ t = { s with ip := t.ip }) ∧
    (∃ t : State, exec (.jf m1 m2) s = .next t ∧ (p1.toInt = 0 → t.ip = p2) ∧
      (p1.toInt ≠ 0 → t.ip.toInt = s.ip.toInt + 3) ∧ t = { s with ip := t.ip })

/-- 45_jumps.md, fatal conditions of JT, with 42_dispatcher.md section 2 (decisions D11, D12): a jump to an address out
of bounds completes, and the next step raises OutOfBounds at the target with no opcode. -/
def Obligations.JumpOutOfBoundsFaultsAtTheNextFetch : Prop :=
  ∀ (s : State) (i : Instr) (m1 m2 : Mode) (p2 : Word), s.status = .running → s.current = some i →
    i = .jt m1 m2 ∨ i = .jf m1 m2 → s.jumpCondition i → s.operand m2 2 = some p2 → ¬ s.mem.InBounds p2.toInt →
    step s = .next { s with ip := p2 } ∧
    step { s with ip := p2 } =
      .next { s with
        ip := p2
        status := .faulted
        fault := some { kind := .outOfBounds, ip := p2, opc := none } }

/-- 47_halt.md, HLT (decision D13: ip stays): the run ends HALTED from every state and nothing else changes. -/
def Obligations.HaltEndsTheRun : Prop :=
  ∀ s : State, ∃ t : State, exec .hlt s = .next t ∧ t.status = .halted ∧ t.ip = s.ip ∧ t.mem = s.mem ∧
    t.inp = s.inp ∧ t.cur = s.cur ∧ t.out = s.out ∧ t.fault = s.fault

/-- Rule R151: a word whose opcode is not one of the nine raises UnknownOpcode with that opcode and the address of the
word, in whatever cell it stands, and nothing but status and fault changes. -/
def Obligations.UnrecognisedOpcodeRaises : Prop :=
  (∀ w : Word, (decodeWord w).opc ∉ [1, 2, 3, 4, 5, 6, 7, 8, 99] → decode w = .illegal (decodeWord w).opc) ∧
  (∀ (opc : Int) (s : State),
    exec (.illegal opc) s =
      .next { s with status := .faulted, fault := some { kind := .unknownOpcode, ip := s.ip, opc := some opc } })

/-! ### Fatal conditions -/

/-- 41_resolver.md section 2 and 60_exceptions.md section 2 (decisions D7, D9): an instruction with an address out of
bounds ends in OutOfBounds with its opcode, and only status and fault are written. For IN the input must not be
exhausted, since that is tested first. -/
def Obligations.UnresolvableOperandRaisesOutOfBounds : Prop :=
  ∀ (i : Instr) (s : State), s.addressOutOfBounds i → (i = .inp → s.cur < s.inp.length) →
    exec i s =
      .next { s with status := .faulted, fault := some { kind := .outOfBounds, ip := s.ip, opc := some i.opcode } }

/-- Rule R162: InputExhausted is raised exactly when an IN executes with the cursor at L. That a raise shows as a fault
record is decision D7. -/
def Obligations.InputExhaustedExactlyByInAtTheEnd : Prop :=
  ∀ s t : State, s.Inv → s.status = .running → step s = .next t →
    ((∃ r, t.fault = some r ∧ r.kind = .inputExhausted) ↔ s.current = some .inp ∧ s.cur = s.inp.length)

/-- Rule R163: UnknownOpcode is raised exactly when the word at ip decodes to none of the nine opcodes. That a raise
shows as a fault record is decision D7. -/
def Obligations.UnknownOpcodeExactlyForIllegalWords : Prop :=
  ∀ s t : State, s.Inv → s.status = .running → step s = .next t →
    ((∃ r, t.fault = some r ∧ r.kind = .unknownOpcode) ↔
      ∃ w, s.fetch = some w ∧ (decodeWord w).opc ∉ [1, 2, 3, 4, 5, 6, 7, 8, 99])

/-- 60_exceptions.md section 1, OutOfBounds: it is raised exactly when an address the core is about to use is out of
bounds: ip at the fetch (decision D12), a slot, the pointer of a positional operand, or a destination. An exhausted IN
uses no address, since the input is tested first (decision D10). -/
def Obligations.OutOfBoundsExactlyForBadAddresses : Prop :=
  ∀ s t : State, s.Inv → s.status = .running → step s = .next t →
    ((∃ r, t.fault = some r ∧ r.kind = .outOfBounds) ↔
      ¬ s.mem.InBounds s.ip.toInt ∨
      ∃ i, s.current = some i ∧ s.addressOutOfBounds i ∧ ¬ (i = .inp ∧ s.cur = s.inp.length))

/-- 60_exceptions.md section 2 and 42_dispatcher.md section 2 (decisions D7, D9): a step that ends FAULTED writes only
status and fault, and the record has the ip at the start of the step and the opcode of the word there, none when the
fetch itself failed. -/
def Obligations.FaultsArePrecise : Prop :=
  ∀ s t : State, s.status = .running → step s = .next t → t.status = .faulted →
    ∃ r : FaultRecord, t = { s with status := .faulted, fault := some r } ∧ r.ip = s.ip ∧
      r.opc = (s.mem.read s.ip.toInt).map (fun w => (decodeWord w).opc)

/-- 42_dispatcher.md section 2, fetch (decision D12): a step with ip out of bounds raises OutOfBounds with no opcode. -/
def Obligations.FetchOutOfBoundsRaises : Prop :=
  ∀ s : State, s.status = .running → ¬ s.mem.InBounds s.ip.toInt →
    step s =
      .next { s with status := .faulted, fault := some { kind := .outOfBounds, ip := s.ip, opc := none } }

/-! ### The step -/

/-- 42_dispatcher.md section 2: while the run goes on, a step is the execution of the instruction that the word at ip
decodes to, at that very state. -/
def Obligations.StepRunsTheDecodedInstruction : Prop :=
  ∀ (s : State) (w : Word), s.status = .running → s.mem.read s.ip.toInt = some w → step s = exec (decode w) s

/-- 42_dispatcher.md section 1: once the run has ended the dispatcher changes nothing. That this is a next state equal
to the present one is the model's choice (log 4). -/
def Obligations.EndedRunsStayAsTheyAre : Prop :=
  ∀ s : State, s.status ≠ .running → step s = .next s

/-- 70_reset_and_hazards.md section 3, progress: while the status is RUNNING a step always answers a next state. That one
is answered in an ended run too, where the spec leaves Step undefined, is the model's choice (log 4). -/
def Obligations.StepAlwaysAnswersANextState : Prop :=
  ∀ s : State, ∃ t, step s = .next t

/-- Rule R96: the length the dispatcher derives from the opcode, what every instruction does to ip, and that a step that
raises leaves it. That a raise shows as the status FAULTED is decision D7. -/
def Obligations.EveryInstructionControlsIpByTheTable : Prop :=
  (∀ opc : Int, (formatOfOpcode opc).map Format.length =
    if opc ∈ [1, 2, 7, 8] then some 4 else if opc ∈ [5, 6] then some 3 else if opc ∈ [3, 4] then some 2
    else if opc = 99 then some 1 else none) ∧
  (∀ s t : State, s.status = .running → step s = .next t → t.status = .faulted → t.ip = s.ip) ∧
  (∀ (s t : State) (i : Instr), s.Inv → s.status = .running → s.current = some i → step s = .next t →
    t.status ≠ .faulted →
      (∀ m1 m2, i = .add m1 m2 ∨ i = .mul m1 m2 ∨ i = .lt m1 m2 ∨ i = .eq m1 m2 → t.ip.toInt = s.ip.toInt + 4) ∧
      (i = .inp → t.ip.toInt = s.ip.toInt + 2) ∧
      (∀ m1, i = .out m1 → t.ip.toInt = s.ip.toInt + 2) ∧
      (∀ m1 m2, i = .jt m1 m2 → ∃ p1 p2, s.operand m1 1 = some p1 ∧ s.operand m2 2 = some p2 ∧
        (p1.toInt ≠ 0 → t.ip = p2) ∧ (p1.toInt = 0 → t.ip.toInt = s.ip.toInt + 3)) ∧
      (∀ m1 m2, i = .jf m1 m2 → ∃ p1 p2, s.operand m1 1 = some p1 ∧ s.operand m2 2 = some p2 ∧
        (p1.toInt = 0 → t.ip = p2) ∧ (p1.toInt ≠ 0 → t.ip.toInt = s.ip.toInt + 3)) ∧
      (i = .hlt → t.ip = s.ip) ∧
      (∀ opc, i ≠ .illegal opc))

/-- 10_state.md section 5, the input cursor: it starts at 0, a successful IN adds 1 to it, nothing else changes it, it
never exceeds L, and the input is exhausted exactly when it is L. -/
def Obligations.CursorMovesOnlyByIn : Prop :=
  (∀ l : Launch, (State.ofLaunch l).cur = 0) ∧
  (∀ s t : State, s.Inv → step s = .next t →
    (s.status = .running → s.current = some .inp → t.status = .running → t.cur = s.cur + 1) ∧
    (¬ (s.status = .running ∧ s.current = some .inp ∧ t.status = .running) → t.cur = s.cur) ∧
    t.cur ≤ s.inp.length ∧ t.inp = s.inp ∧ (s.nextInput = none ↔ s.cur = s.inp.length))

/-- 10_state.md section 5, the output sequence: it starts empty, a successful OUT appends its operand, and nothing else
changes it. That no instruction can read it is Obligations.NoInstructionReadsTheOutput. -/
def Obligations.OutputGrowsOnlyByOut : Prop :=
  (∀ l : Launch, (State.ofLaunch l).out = []) ∧
  (∀ s t : State, step s = .next t →
    (∀ m1 p1, s.status = .running → s.current = some (.out m1) → s.operand m1 1 = some p1 → t.out = s.out ++ [p1]) ∧
    ((∀ m1 p1, ¬ (s.status = .running ∧ s.current = some (.out m1) ∧ s.operand m1 1 = some p1)) → t.out = s.out))

/-- 10_state.md section 4: memory never grows or shrinks, and a step changes at most the cell at the destination of an
ADD, MUL, LT, EQ or IN; the input sequence is constant (00_scope.md section 4). -/
def Obligations.OnlyTheDestinationCellChanges : Prop :=
  ∀ s t : State, step s = .next t →
    t.mem.len = s.mem.len ∧ t.inp = s.inp ∧
    (∀ a, t.mem.read a ≠ s.mem.read a →
      s.status = .running ∧ ∃ i d, s.current = some i ∧ s.storeTarget i = some d ∧ a = d.toInt)

/-- 20_memory.md section 10: what the fetch and the slot reads of the next step return is the memory as this step wrote
it, be the written cell an instruction word or a parameter cell of any instruction. -/
def Obligations.StoresAreSeenByTheNextFetch : Prop :=
  ∀ (s t : State) (i : Instr) (d v : Word), s.status = .running → s.current = some i →
    s.storeTarget i = some d → s.storedValue i = some v → step s = .next t →
    t.status = .running ∧ (t.ip = d → t.fetch = some v) ∧ (t.ip ≠ d → t.fetch = s.mem.read t.ip.toInt) ∧
    (∀ k, t.slot k = d.toInt → t.mem.read (t.slot k) = some v) ∧
    (∀ k, t.slot k ≠ d.toInt → t.mem.read (t.slot k) = s.mem.read (t.slot k))

/-- 10_state.md section 6: the run ends HALTED exactly by a HLT, and FAULTED exactly by a fetch out of bounds, an
illegal word, an exhausted IN or an address out of bounds; otherwise it goes on. -/
def Obligations.RunsEndOnlyByHaltOrFatalCondition : Prop :=
  ∀ s t : State, s.Inv → s.status = .running → step s = .next t →
    (t.status = .halted ↔ s.current = some .hlt) ∧
    (t.status = .faulted ↔
      s.current = none ∨
      ∃ i, s.current = some i ∧
        ((∃ opc, i = .illegal opc) ∨ (i = .inp ∧ s.cur = s.inp.length) ∨ s.addressOutOfBounds i))

/-! ### Frames -/

/-- 20_memory.md section 4 and 42_dispatcher.md section 2, the frame of ADD, MUL, LT, EQ and IN: every cell but the one
at the destination reads as before, the output, the input and N are unchanged, the cursor is unchanged but for IN, and
status and fault are unchanged unless the instruction raises, and then memory, ip, cursor are unchanged too. -/
def Obligations.StoringInstructionsChangeOneCell : Prop :=
  ∀ (i : Instr) (s t : State) (m1 m2 : Mode),
    i = .add m1 m2 ∨ i = .mul m1 m2 ∨ i = .lt m1 m2 ∨ i = .eq m1 m2 ∨ i = .inp → exec i s = .next t →
    (∀ d, s.storeTarget i = some d → ∀ a, a ≠ d.toInt → t.mem.read a = s.mem.read a) ∧
    (s.storeTarget i = none → ∀ a, t.mem.read a = s.mem.read a) ∧
    t.mem.len = s.mem.len ∧ t.inp = s.inp ∧ t.out = s.out ∧ (i ≠ .inp → t.cur = s.cur) ∧
    ((t.status = s.status ∧ t.fault = s.fault) ∨
      (t.status = .faulted ∧ (∀ a, t.mem.read a = s.mem.read a) ∧ t.ip = s.ip ∧ t.cur = s.cur))

/-- 20_memory.md section 4 and 42_dispatcher.md section 2, the frame of OUT, JT, JF, HLT and illegal words: every cell
reads as before, the input, the cursor and N are unchanged, the output is unchanged but for OUT, and fault is unchanged
unless the instruction raises; status is unchanged unless it raises or is HLT. -/
def Obligations.OtherInstructionsChangeNoCell : Prop :=
  ∀ (i : Instr) (s t : State) (m1 m2 : Mode) (opc : Int),
    i = .out m1 ∨ i = .jt m1 m2 ∨ i = .jf m1 m2 ∨ i = .hlt ∨ i = .illegal opc → exec i s = .next t →
    (∀ a, t.mem.read a = s.mem.read a) ∧ t.mem.len = s.mem.len ∧ t.inp = s.inp ∧ t.cur = s.cur ∧
    (i ≠ .out m1 → t.out = s.out) ∧
    ((t.status = s.status ∧ t.fault = s.fault) ∨ (i = .hlt ∧ t.status = .halted ∧ t.fault = s.fault ∧ t.ip = s.ip) ∨
      (t.status = .faulted ∧ t.ip = s.ip ∧ t.out = s.out))

/-! ### Reset and the invariant -/

/-- Rule R191: every run starts at address 0, whatever the launch, and its first fetch is of cell 0. -/
def Obligations.EveryRunStartsAtAddressZero : Prop :=
  ∀ l : Launch, (State.ofLaunch l).ip = 0 ∧ (State.ofLaunch l).fetch = l.mem0.read 0

/-- 10_state.md section 10 and 70_reset_and_hazards.md section 1 (decision D18): reset in any state leaves the initial
state of its launch and nothing of the run before. -/
def Obligations.ResetEstablishesTheInitialState : Prop :=
  ∀ (l : Launch) (s : State),
    s.resetBy l =
      { ip := 0, mem := l.mem0, inp := l.inp, cur := 0, out := [], status := .running, fault := none }

/-- The invariant holds at State.reset, the launch with nothing loaded (the model's choice, log 1). -/
def Obligations.ResetStateMeetsTheInvariant : Prop := State.reset.Inv

/-- 10_state.md section 10 and 00_scope.md section 4: the invariant holds after reset with every launch the spec
admits. -/
def Obligations.EveryLaunchMeetsTheInvariant : Prop :=
  ∀ l : Launch, l.wf = true → (State.ofLaunch l).Inv

/-- 10_state.md sections 4 to 6 and 60_exceptions.md section 1: every step keeps the invariant: memory in canonical form
and within the admitted length, the cursor at most L, no fault record unless FAULTED, HALTED only at a HLT word, and in
FAULTED a record that agrees with the word at ip. The canonical form is the model's (log 2). -/
def Obligations.EveryStepKeepsTheInvariant : Prop :=
  ∀ s t : State, s.Inv → step s = .next t → t.Inv

/-! ### Whole runs -/

/-- 42_dispatcher.md section 2 (rule R93's text, 90_conflicts.md C10): a step that takes no jump and does not end the run
moves ip up by at least 2 and to at most N. -/
def Obligations.IncrementsNeverPassTheEnd : Prop :=
  ∀ s t : State, s.Inv → s.status = .running → ¬ s.takesJump → step s = .next t → t.status = .running →
    s.ip.toInt + 2 ≤ t.ip.toInt ∧ 0 ≤ t.ip.toInt ∧ t.ip.toInt ≤ (s.mem.len : Int)

/-- 42_dispatcher.md section 4 (decision D21): a taken jump to its own address repeats the same state for ever. -/
def Obligations.JumpToItselfNeverEnds : Prop :=
  ∀ (s : State) (i : Instr) (m1 m2 : Mode), s.status = .running → s.current = some i →
    i = .jt m1 m2 ∨ i = .jf m1 m2 → s.jumpCondition i → s.operand m2 2 = some s.ip →
    ∀ k, s.after k = some s

/-- 42_dispatcher.md section 4, bounded runs: a run in which no jump is ever taken has ended after floor(N/2) + 1
steps. A jump whose second operand cannot be resolved raises and is not taken. That a run which ends earlier still has
a state after that many steps, its last one repeated, is the model's choice (log 4). -/
def Obligations.RunsWithoutTakenJumpsEnd : Prop :=
  ∀ l : Launch, l.wf = true →
    (∀ k t, (State.ofLaunch l).after k = some t → t.status = .running → ¬ t.takesJump) →
    ∃ t, (State.ofLaunch l).after (l.mem0.len / 2 + 1) = some t ∧ t.Ended

/-- 42_dispatcher.md section 4, bounded runs: a run that executes only ADD, MUL and HLT has ended after floor(N/4) + 1
steps. That a run which ends earlier still has a state after that many steps, its last one repeated, is the model's
choice (log 4). -/
def Obligations.ArithmeticRunsEnd : Prop :=
  ∀ l : Launch, l.wf = true →
    (∀ k t i, (State.ofLaunch l).after k = some t → t.status = .running → t.current = some i →
      (∃ m1 m2, i = .add m1 m2 ∨ i = .mul m1 m2) ∨ i = .hlt) →
    ∃ t, (State.ofLaunch l).after (l.mem0.len / 4 + 1) = some t ∧ t.Ended

/-- 10_state.md section 5: no instruction can read the output sequence: two states that differ only in it make the same
step and emit the same values. -/
def Obligations.NoInstructionReadsTheOutput : Prop :=
  ∀ (s t : State) (o : List Word), step s = .next t →
    ∃ emitted, t.out = s.out ++ emitted ∧ step { s with out := o } = .next { t with out := o ++ emitted }

/-- 10_state.md section 5: no instruction but IN can read the cursor or the input: with another input and cursor the step
does the same. -/
def Obligations.OnlyInReadsTheInput : Prop :=
  ∀ (s t : State) (inp : List Word) (cur : Nat), s.current ≠ some .inp → step s = .next t →
    step { s with inp := inp, cur := cur } = .next { t with inp := inp, cur := cur }

/-! ### The hardware view -/

/-- 42_dispatcher.md section 6 and 10_state.md section 9 (decision D22): the phases FETCH, DECODE, OPERAND, EXECUTE and
COMMIT, started with any latch contents, do what the step function does. That both answer the same state again once the
run has ended, where the spec leaves Step undefined, is the model's choice (log 4). -/
def Obligations.PhasesRefineTheStep : Prop :=
  ∀ (l : Latches) (s : State), step s = .next (stepByPhases l s).1

/-- 10_state.md section 9 (decision D22): what the latches held before a step cannot be observed, neither in the state
nor in the transactions. -/
def Obligations.LatchesAreNotObservable : Prop :=
  ∀ (l l' : Latches) (s : State), stepByPhases l s = stepByPhases l' s

/-- 20_memory.md section 1 and 70_reset_and_hazards.md section 3, item 4 (decision D20): no memory access is issued for
an address out of bounds. -/
def Obligations.EveryIssuedAccessIsInBounds : Prop :=
  ∀ (l : Latches) (s : State) (x : Transaction), x ∈ (stepByPhases l s).2 → x.inBounds s.mem

/-- 42_dispatcher.md section 2 and 70_reset_and_hazards.md section 3, items 2, 3, 5 and 6 (decision D20): all the reads of
a step come first, then at most one memory write, and a step that raises or finds the run ended issues no write, no take
and no push. -/
def Obligations.ReadsComeBeforeTheOneWrite : Prop :=
  ∀ (l : Latches) (s : State), ∃ reads writes,
    (stepByPhases l s).2 = reads ++ writes ∧ (∀ x ∈ reads, x.isRead = true) ∧ (∀ x ∈ writes, x.isRead = false) ∧
    (writes.filter Transaction.isWrite).length ≤ 1 ∧
    ((stepByPhases l s).1.status = .faulted → writes = []) ∧
    (s.status ≠ .running → reads = [] ∧ writes = [])

/-- 42_dispatcher.md section 8, memory read port, and 20_memory.md section 7, item 2 (decision D19): what every memory
read of a step receives is the cell that memory holds at that address before the step. -/
def Obligations.EveryReadReceivesTheStoredCell : Prop :=
  ∀ (l : Latches) (s : State) (a : Int) (v : Word),
    Transaction.memRead a v ∈ (stepByPhases l s).2 → s.mem.read a = some v

/-- 20_memory.md section 4, the table of accesses: the memory reads, each with the cell it receives, and the one write of
ADD, MUL, LT and EQ when nothing is raised, in order. w is the word at ip, v1 and v2 are the parameter cells of the
operands p1 and p2. -/
def Obligations.FourCellInstructionsAccessMemoryInOrder : Prop :=
  ∀ (l : Latches) (s : State) (i : Instr) (m1 m2 : Mode) (w v1 v2 p1 p2 d v : Word), s.status = .running →
    s.fetch = some w → decode w = i → i = .add m1 m2 ∨ i = .mul m1 m2 ∨ i = .lt m1 m2 ∨ i = .eq m1 m2 →
    s.mem.read (s.slot 1) = some v1 → s.operand m1 1 = some p1 →
    s.mem.read (s.slot 2) = some v2 → s.operand m2 2 = some p2 → s.destination 3 = some d →
    s.storedValue i = some v →
    (stepByPhases l s).2 =
      [.memRead s.ip.toInt w, .memRead (s.slot 1) v1] ++ (if m1 = .pos then [.memRead v1.toInt p1] else []) ++
      [.memRead (s.slot 2) v2] ++ (if m2 = .pos then [.memRead v2.toInt p2] else []) ++
      [.memRead (s.slot 3) d, .memWrite d.toInt v]

/-- 20_memory.md section 4, the table of accesses, and 42_dispatcher.md section 7: the transactions of IN, OUT, JT, JF
and HLT when nothing is raised, in order, each read with the cell it receives. v1 and v2 are the parameter cells of the
operands p1 and p2. That the take of IN carries the value taken and stands after the write in the list is the model's
choice (log 13): the spec makes the writes of a step together. -/
def Obligations.ShorterInstructionsIssueTheirAccesses : Prop :=
  ∀ (l : Latches) (s : State) (w : Word), s.status = .running → s.fetch = some w →
    (∀ v d, decode w = .inp → s.inp[s.cur]? = some v → s.destination 1 = some d →
      (stepByPhases l s).2 =
        [.memRead s.ip.toInt w, .memRead (s.slot 1) d, .memWrite d.toInt v, .inTake v]) ∧
    (∀ m1 v1 p1, decode w = .out m1 → s.mem.read (s.slot 1) = some v1 → s.operand m1 1 = some p1 →
      (stepByPhases l s).2 =
        [.memRead s.ip.toInt w, .memRead (s.slot 1) v1] ++ (if m1 = .pos then [.memRead v1.toInt p1] else []) ++
        [.outPush p1]) ∧
    (∀ m1 m2 v1 v2 p1 p2, decode w = .jt m1 m2 ∨ decode w = .jf m1 m2 →
      s.mem.read (s.slot 1) = some v1 → s.operand m1 1 = some p1 →
      s.mem.read (s.slot 2) = some v2 → s.operand m2 2 = some p2 →
      (stepByPhases l s).2 =
        [.memRead s.ip.toInt w, .memRead (s.slot 1) v1] ++ (if m1 = .pos then [.memRead v1.toInt p1] else []) ++
        [.memRead (s.slot 2) v2] ++ (if m2 = .pos then [.memRead v2.toInt p2] else [])) ∧
    (decode w = .hlt → (stepByPhases l s).2 = [.memRead s.ip.toInt w])

/-- 40_decoder.md section 3 (decision D19): the 8-bit port dec_opc carries every opcode the decoder can produce, and each
mode port is 1 exactly for immediate. -/
def Obligations.DecoderPortsCarryTheDecodedWord : Prop :=
  ∀ w : Word, (decoderPorts w).decOpc.toInt = (decodeWord w).opc ∧
    ((decoderPorts w).decM1 = 1 ↔ (decodeWord w).m1 = .imm) ∧
    ((decoderPorts w).decM2 = 1 ↔ (decodeWord w).m2 = .imm) ∧
    ((decoderPorts w).decM3 = 1 ↔ (decodeWord w).m3 = .imm)

/-- 30_encoding.md sections 7 and 8 (decision D16; the notation as data is log 14): the mark # is mode immediate and the
mark @ is positional. The canonical words of the nine instructions are the opcode plus 100 and 1000 times the mode
digits, 1 for immediate and 0 for positional. The cells of every item, in order: the canonical word of its instruction,
then the parameters as written. The word decodes to the instruction, and the cells are as many as its length. A listing
assembles when every label it uses is defined; its cells are those of its items one after another, a written value
standing for itself and a label for the address of the cell after it. -/
def Obligations.AssembledInstructionsDecode : Prop :=
  (∀ v, operandMode (.imm v) = .imm ∧ operandMode (.pos v) = .pos ∧ operandValue (.imm v) = v ∧
    operandValue (.pos v) = v) ∧
  (∀ (m1 m2 : Mode) (d1 d2 : Nat), (m1 = .imm ∧ d1 = 1) ∨ (m1 = .pos ∧ d1 = 0) →
    (m2 = .imm ∧ d2 = 1) ∨ (m2 = .pos ∧ d2 = 0) →
    encode (.add m1 m2) = BitVec.ofNat 64 (1 + 100 * d1 + 1000 * d2) ∧
    encode (.mul m1 m2) = BitVec.ofNat 64 (2 + 100 * d1 + 1000 * d2) ∧
    encode .inp = BitVec.ofNat 64 3 ∧
    encode (.out m1) = BitVec.ofNat 64 (4 + 100 * d1) ∧
    encode (.jt m1 m2) = BitVec.ofNat 64 (5 + 100 * d1 + 1000 * d2) ∧
    encode (.jf m1 m2) = BitVec.ofNat 64 (6 + 100 * d1 + 1000 * d2) ∧
    encode (.lt m1 m2) = BitVec.ofNat 64 (7 + 100 * d1 + 1000 * d2) ∧
    encode (.eq m1 m2) = BitVec.ofNat 64 (8 + 100 * d1 + 1000 * d2) ∧
    encode .hlt = BitVec.ofNat 64 99) ∧
  (∀ a b c,
    itemValues (.add a b c) =
      [.lit (encode (.add (operandMode a) (operandMode b))), operandValue a, operandValue b, c] ∧
    itemValues (.mul a b c) =
      [.lit (encode (.mul (operandMode a) (operandMode b))), operandValue a, operandValue b, c] ∧
    itemValues (.inp c) = [.lit (encode .inp), c] ∧
    itemValues (.out a) = [.lit (encode (.out (operandMode a))), operandValue a] ∧
    itemValues (.jt a b) = [.lit (encode (.jt (operandMode a) (operandMode b))), operandValue a, operandValue b] ∧
    itemValues (.jf a b) = [.lit (encode (.jf (operandMode a) (operandMode b))), operandValue a, operandValue b] ∧
    itemValues (.lt a b c) =
      [.lit (encode (.lt (operandMode a) (operandMode b))), operandValue a, operandValue b, c] ∧
    itemValues (.eq a b c) =
      [.lit (encode (.eq (operandMode a) (operandMode b))), operandValue a, operandValue b, c] ∧
    itemValues .hlt = [.lit (encode .hlt)] ∧
    (∀ v, itemValues (.data v) = [v]) ∧ (∀ n, itemValues (.label n) = [])) ∧
  (∀ item i, itemInstr item = some i →
    (itemValues item).head? = some (.lit (encode i)) ∧ decode (encode i) = i ∧
    i.format.map Format.length = some (itemValues item).length) ∧
  (∀ items, (∀ n, CellValue.label n ∈ items.flatMap itemValues → AsmItem.label n ∈ items) →
    ∃ ws, assemble items = some ws) ∧
  (∀ before item after ws, assemble (before ++ item :: after) = some ws →
    ws.length = ((before ++ item :: after).flatMap itemValues).length ∧
    ∀ k v, (itemValues item)[k]? = some v →
      ws[(before.flatMap itemValues).length + k]? = cellOf (before ++ item :: after) v) ∧
  (∀ items v, cellOf items (.lit v) = some v) ∧
  (∀ before after n, AsmItem.label n ∉ before → AsmItem.label n ∉ after →
    cellOf (before ++ .label n :: after) (.label n) =
      some (BitVec.ofNat 64 (before.flatMap itemValues).length))

/-- The model's choice (log 3): after withFetchWord, which stands for a loader, the very next step runs the given
instruction. -/
def Obligations.LoadedWordIsTheNextToRun : Prop :=
  ∀ (s : State) (nbits w : Nat), ∃ i, decodeTableWord nbits w = some i ∧
    step (s.withFetchWord nbits w) = exec i (s.withFetchWord nbits w)
end

