-- ==== Sys2Proof/Laws/Decode.lean ====
section
/-! SUPPORT. The small lemmas of the decoder and of the opcode map. -/

namespace Sys2Proof

theorem opcodeDigits_of_nonneg {w : Int} (h : 0 ≤ w) : opcodeDigits w = w % 100 :=
  Int.tmod_eq_emod_of_nonneg h

/-- Truncated remainder is symmetric in the sign. -/
theorem opcodeDigits_neg (w : Int) : opcodeDigits (-w) = -opcodeDigits w := Int.neg_tmod w 100

theorem modeDigit_neg (weight w : Int) : modeDigit weight (-w) = -modeDigit weight w := by
  rw [modeDigit, Int.neg_tdiv, Int.neg_tmod, modeDigit]

/-- The decoded opcode lies strictly between -100 and 100. -/
theorem opcodeDigits_bounds (w : Int) : -99 ≤ opcodeDigits w ∧ opcodeDigits w ≤ 99 := by
  rcases Int.le_total 0 w with h | h
  · rw [opcodeDigits_of_nonneg h]; omega
  · have hn := opcodeDigits_of_nonneg (w := -w) (by omega)
    rw [opcodeDigits_neg] at hn
    omega

theorem modeDigit_of_nonneg {w weight : Int} (h : 0 ≤ w) (hw : 0 ≤ weight) :
    modeDigit weight w = w / weight % 10 := by
  rw [modeDigit, Int.tdiv_eq_ediv_of_nonneg h, Int.tmod_eq_emod_of_nonneg (Int.ediv_nonneg h hw)]

/-- An opcode is its own opcode digits. -/
theorem opcodeDigits_of_small {o : Int} (h1 : -99 ≤ o) (h2 : o ≤ 99) : opcodeDigits o = o := by
  rcases Int.le_total 0 o with h | h
  · rw [opcodeDigits_of_nonneg h]; omega
  · have hn := opcodeDigits_of_nonneg (w := -o) (by omega)
    rw [opcodeDigits_neg] at hn
    omega

theorem modeOfDigit_eq_imm_iff (d : Int) : modeOfDigit d = .imm ↔ d = 1 := by
  simp only [modeOfDigit]; split <;> simp_all

theorem modeOfDigit_digit (m : Mode) : modeOfDigit m.digit = m := by cases m <;> rfl

/-- The selected instruction has the decoded opcode. -/
@[simp] theorem selectInstr_opcode (d : Decoded) : (selectInstr d).opcode = d.opc := by
  simp only [selectInstr]
  repeat' split
  all_goals simp_all [Instr.opcode]

@[simp] theorem decode_opcode (w : Word) : (decode w).opcode = opcodeDigits w.toInt := selectInstr_opcode _

/-- A small integer survives as a word. -/
theorem toInt_ofInt_of_range {v : Int} (h1 : -9223372036854775808 ≤ v) (h2 : v ≤ 9223372036854775807) :
    (BitVec.ofInt 64 v).toInt = v := by
  rw [BitVec.toInt_ofInt]
  exact Int.bmod_eq_of_le (by omega) (by omega)

end Sys2Proof
end

