-- ==== Sys2Proof/Laws/State.lean ====
section
/-! SUPPORT. One lemma per field per update of State, true by definition, so that no proof unfolds a record update. -/

namespace Sys2Proof.Machine

@[simp] theorem State.advance_ip (s : State) (n : Nat) : (s.advance n).ip = BitVec.ofInt 64 (s.ip.toInt + (n : Int)) := rfl
@[simp] theorem State.advance_mem (s : State) (n : Nat) : (s.advance n).mem = s.mem := rfl
@[simp] theorem State.advance_inp (s : State) (n : Nat) : (s.advance n).inp = s.inp := rfl
@[simp] theorem State.advance_cur (s : State) (n : Nat) : (s.advance n).cur = s.cur := rfl
@[simp] theorem State.advance_out (s : State) (n : Nat) : (s.advance n).out = s.out := rfl
@[simp] theorem State.advance_status (s : State) (n : Nat) : (s.advance n).status = s.status := rfl
@[simp] theorem State.advance_fault (s : State) (n : Nat) : (s.advance n).fault = s.fault := rfl

@[simp] theorem State.jump_ip (s : State) (t : Word) : (s.jump t).ip = t := rfl
@[simp] theorem State.jump_mem (s : State) (t : Word) : (s.jump t).mem = s.mem := rfl
@[simp] theorem State.jump_inp (s : State) (t : Word) : (s.jump t).inp = s.inp := rfl
@[simp] theorem State.jump_cur (s : State) (t : Word) : (s.jump t).cur = s.cur := rfl
@[simp] theorem State.jump_out (s : State) (t : Word) : (s.jump t).out = s.out := rfl
@[simp] theorem State.jump_status (s : State) (t : Word) : (s.jump t).status = s.status := rfl
@[simp] theorem State.jump_fault (s : State) (t : Word) : (s.jump t).fault = s.fault := rfl

@[simp] theorem State.store_ip (s : State) (d v : Word) : (s.store d v).ip = s.ip := rfl
@[simp] theorem State.store_mem (s : State) (d v : Word) : (s.store d v).mem = s.mem.write d.toInt v := rfl
@[simp] theorem State.store_inp (s : State) (d v : Word) : (s.store d v).inp = s.inp := rfl
@[simp] theorem State.store_cur (s : State) (d v : Word) : (s.store d v).cur = s.cur := rfl
@[simp] theorem State.store_out (s : State) (d v : Word) : (s.store d v).out = s.out := rfl
@[simp] theorem State.store_status (s : State) (d v : Word) : (s.store d v).status = s.status := rfl
@[simp] theorem State.store_fault (s : State) (d v : Word) : (s.store d v).fault = s.fault := rfl

@[simp] theorem State.consumeInput_ip (s : State) : s.consumeInput.ip = s.ip := rfl
@[simp] theorem State.consumeInput_mem (s : State) : s.consumeInput.mem = s.mem := rfl
@[simp] theorem State.consumeInput_inp (s : State) : s.consumeInput.inp = s.inp := rfl
@[simp] theorem State.consumeInput_cur (s : State) : s.consumeInput.cur = s.cur + 1 := rfl
@[simp] theorem State.consumeInput_out (s : State) : s.consumeInput.out = s.out := rfl
@[simp] theorem State.consumeInput_status (s : State) : s.consumeInput.status = s.status := rfl
@[simp] theorem State.consumeInput_fault (s : State) : s.consumeInput.fault = s.fault := rfl

@[simp] theorem State.emit_ip (s : State) (v : Word) : (s.emit v).ip = s.ip := rfl
@[simp] theorem State.emit_mem (s : State) (v : Word) : (s.emit v).mem = s.mem := rfl
@[simp] theorem State.emit_inp (s : State) (v : Word) : (s.emit v).inp = s.inp := rfl
@[simp] theorem State.emit_cur (s : State) (v : Word) : (s.emit v).cur = s.cur := rfl
@[simp] theorem State.emit_out (s : State) (v : Word) : (s.emit v).out = s.out ++ [v] := rfl
@[simp] theorem State.emit_status (s : State) (v : Word) : (s.emit v).status = s.status := rfl
@[simp] theorem State.emit_fault (s : State) (v : Word) : (s.emit v).fault = s.fault := rfl

@[simp] theorem State.halt_ip (s : State) : s.halt.ip = s.ip := rfl
@[simp] theorem State.halt_mem (s : State) : s.halt.mem = s.mem := rfl
@[simp] theorem State.halt_inp (s : State) : s.halt.inp = s.inp := rfl
@[simp] theorem State.halt_cur (s : State) : s.halt.cur = s.cur := rfl
@[simp] theorem State.halt_out (s : State) : s.halt.out = s.out := rfl
@[simp] theorem State.halt_status (s : State) : s.halt.status = .halted := rfl
@[simp] theorem State.halt_fault (s : State) : s.halt.fault = s.fault := rfl

@[simp] theorem State.raise_ip (s : State) (k : FatalKind) (o : Option Int) : (s.raise k o).ip = s.ip := rfl
@[simp] theorem State.raise_mem (s : State) (k : FatalKind) (o : Option Int) : (s.raise k o).mem = s.mem := rfl
@[simp] theorem State.raise_inp (s : State) (k : FatalKind) (o : Option Int) : (s.raise k o).inp = s.inp := rfl
@[simp] theorem State.raise_cur (s : State) (k : FatalKind) (o : Option Int) : (s.raise k o).cur = s.cur := rfl
@[simp] theorem State.raise_out (s : State) (k : FatalKind) (o : Option Int) : (s.raise k o).out = s.out := rfl
@[simp] theorem State.raise_status (s : State) (k : FatalKind) (o : Option Int) : (s.raise k o).status = .faulted := rfl
@[simp] theorem State.raise_fault (s : State) (k : FatalKind) (o : Option Int) : (s.raise k o).fault = some { kind := k, ip := s.ip, opc := o } := rfl

@[simp] theorem State.ofLaunch_ip (l : Launch) : (State.ofLaunch l).ip = Config.resetVector := rfl
@[simp] theorem State.ofLaunch_mem (l : Launch) : (State.ofLaunch l).mem = l.mem0 := rfl
@[simp] theorem State.ofLaunch_inp (l : Launch) : (State.ofLaunch l).inp = l.inp := rfl
@[simp] theorem State.ofLaunch_cur (l : Launch) : (State.ofLaunch l).cur = 0 := rfl
@[simp] theorem State.ofLaunch_out (l : Launch) : (State.ofLaunch l).out = [] := rfl
@[simp] theorem State.ofLaunch_status (l : Launch) : (State.ofLaunch l).status = .running := rfl
@[simp] theorem State.ofLaunch_fault (l : Launch) : (State.ofLaunch l).fault = none := rfl

end Sys2Proof.Machine
end

