-- ==== Sys2Proof/Laws/Memory.lean ====
section
/-! SUPPORT. The laws of memory: a read after a write, the frame of a write, and that every memory operation keeps the
canonical form. -/

namespace Sys2Proof.Machine

/-! ### One cell -/

theorem Memory.lookup_of_absent (cells : List (Nat × Word)) (a : Nat) (h : ∀ c ∈ cells, c.1 ≠ a) :
    Memory.lookup cells a = Config.unlistedCell := by
  induction cells with
  | nil => rfl
  | cons c rest ih =>
    have hc : c.1 ≠ a := h c (by simp)
    simp [Memory.lookup, hc, ih (fun d hd => h d (by simp [hd]))]

theorem Memory.lookup_insertCell_same (cells : List (Nat × Word)) (a : Nat) (v : Word)
    (h : ∀ c ∈ cells, c.1 ≠ a) : Memory.lookup (Memory.insertCell a v cells) a = v := by
  induction cells with
  | nil => simp [Memory.insertCell, Memory.lookup]
  | cons c rest ih =>
    have hc : c.1 ≠ a := h c (by simp)
    simp only [Memory.insertCell]
    split
    · simp [Memory.lookup]
    · simp [Memory.lookup, hc, ih (fun d hd => h d (by simp [hd]))]

theorem Memory.lookup_insertCell_other (cells : List (Nat × Word)) (a b : Nat) (v : Word) (hab : a ≠ b) :
    Memory.lookup (Memory.insertCell a v cells) b = Memory.lookup cells b := by
  induction cells with
  | nil => simp [Memory.insertCell, Memory.lookup, hab]
  | cons c rest ih =>
    simp only [Memory.insertCell]
    split <;> simp [Memory.lookup, hab, ih]

theorem Memory.lookup_filter_other (cells : List (Nat × Word)) (a b : Nat) (hab : a ≠ b) :
    Memory.lookup (cells.filter (fun c => decide (c.1 ≠ a))) b = Memory.lookup cells b := by
  induction cells with
  | nil => rfl
  | cons c rest ih =>
    by_cases hc : c.1 = a
    · simp [hc, Memory.lookup, hab] at ih ⊢; exact ih
    · simp [hc, Memory.lookup] at ih ⊢; rw [ih]

theorem Memory.filter_absent (cells : List (Nat × Word)) (a : Nat) :
    ∀ c ∈ cells.filter (fun c => decide (c.1 ≠ a)), c.1 ≠ a := by
  intro c hc
  simpa using (List.mem_filter.mp hc).2

@[simp] theorem Memory.lookup_setCell_same (cells : List (Nat × Word)) (a : Nat) (v : Word) :
    Memory.lookup (Memory.setCell cells a v) a = v := by
  simp only [Memory.setCell]
  split
  · next h => rw [h]; exact Memory.lookup_of_absent _ _ (Memory.filter_absent cells a)
  · exact Memory.lookup_insertCell_same _ _ _ (Memory.filter_absent cells a)

theorem Memory.lookup_setCell_other (cells : List (Nat × Word)) (a b : Nat) (v : Word) (hab : a ≠ b) :
    Memory.lookup (Memory.setCell cells a v) b = Memory.lookup cells b := by
  simp only [Memory.setCell]
  split
  · exact Memory.lookup_filter_other _ _ _ hab
  · rw [Memory.lookup_insertCell_other _ _ _ _ hab, Memory.lookup_filter_other _ _ _ hab]

/-! ### Reads and writes -/

@[simp] theorem Memory.write_len (m : Memory) (a : Int) (v : Word) : (m.write a v).len = m.len := by
  simp only [Memory.write]; split <;> rfl

theorem Memory.inBounds_write (m : Memory) (a b : Int) (v : Word) :
    (m.write a v).InBounds b ↔ m.InBounds b := by simp [Memory.InBounds]

theorem Memory.read_eq_none_iff (m : Memory) (a : Int) : m.read a = none ↔ ¬ m.InBounds a := by
  simp only [Memory.read]; split <;> simp_all

theorem Memory.inBounds_of_read {m : Memory} {a : Int} {v : Word} (h : m.read a = some v) : m.InBounds a := by
  by_contra hn
  rw [(Memory.read_eq_none_iff m a).mpr hn] at h
  cases h

theorem Memory.read_of_inBounds {m : Memory} {a : Int} (h : m.InBounds a) :
    m.read a = some (Memory.lookup m.cells a.toNat) := if_pos h

theorem Memory.write_of_inBounds {m : Memory} {a : Int} (h : m.InBounds a) (v : Word) :
    m.write a v = { m with cells := Memory.setCell m.cells a.toNat v } := if_pos h

theorem Memory.write_of_not_inBounds {m : Memory} {a : Int} (h : ¬ m.InBounds a) (v : Word) :
    m.write a v = m := if_neg h

theorem Memory.read_write_same (m : Memory) (a : Int) (v : Word) (h : m.InBounds a) :
    (m.write a v).read a = some v := by
  rw [Memory.read_of_inBounds ((Memory.inBounds_write m a a v).mpr h), Memory.write_of_inBounds h]
  simp

theorem Memory.read_write_other (m : Memory) (a b : Int) (v : Word) (hab : b ≠ a) :
    (m.write a v).read b = m.read b := by
  by_cases hb : m.InBounds b
  · rw [Memory.read_of_inBounds ((Memory.inBounds_write m a b v).mpr hb), Memory.read_of_inBounds hb]
    by_cases ha : m.InBounds a
    · have hn : a.toNat ≠ b.toNat := by
        have := ha.1
        have := hb.1
        omega
      rw [Memory.write_of_inBounds ha, Memory.lookup_setCell_other _ _ _ _ hn]
    · rw [Memory.write_of_not_inBounds ha]
  · rw [(Memory.read_eq_none_iff _ _).mpr hb,
      (Memory.read_eq_none_iff _ _).mpr (fun h => hb ((Memory.inBounds_write m a b v).mp h))]

/-! ### The canonical form -/

theorem Memory.mem_insertCell (a : Nat) (v : Word) (cells : List (Nat × Word)) (d : Nat × Word) :
    d ∈ Memory.insertCell a v cells ↔ d = (a, v) ∨ d ∈ cells := by
  induction cells with
  | nil => simp [Memory.insertCell]
  | cons c rest ih =>
    simp only [Memory.insertCell]
    split
    · simp
    · simp [ih, or_left_comm]

theorem Memory.rising_insertCell (a : Nat) (v : Word) (cells : List (Nat × Word))
    (hr : Memory.rising cells = true) (hab : ∀ c ∈ cells, c.1 ≠ a) :
    Memory.rising (Memory.insertCell a v cells) = true := by
  induction cells with
  | nil => simp [Memory.insertCell, Memory.rising]
  | cons c rest ih =>
    simp only [Memory.rising, Bool.and_eq_true, List.all_eq_true, decide_eq_true_eq] at hr
    have hc : c.1 ≠ a := hab c (by simp)
    simp only [Memory.insertCell]
    split
    · next h =>
      simp only [Memory.rising, List.all_cons, Bool.and_eq_true, List.all_eq_true, decide_eq_true_eq]
      exact ⟨⟨h, fun d hd => h.trans (hr.1 d hd)⟩, hr.1, hr.2⟩
    · next h =>
      simp only [Memory.rising, Bool.and_eq_true, List.all_eq_true, decide_eq_true_eq]
      refine ⟨fun d hd => ?_, ih hr.2 (fun d hd => hab d (by simp [hd]))⟩
      rcases (Memory.mem_insertCell a v rest d).mp hd with rfl | hd
      · exact Nat.lt_of_le_of_ne (Nat.le_of_not_lt h) hc
      · exact hr.1 d hd

theorem Memory.rising_filter (p : Nat × Word → Bool) (cells : List (Nat × Word))
    (hr : Memory.rising cells = true) : Memory.rising (cells.filter p) = true := by
  induction cells with
  | nil => rfl
  | cons c rest ih =>
    simp only [Memory.rising, Bool.and_eq_true, List.all_eq_true, decide_eq_true_eq] at hr
    rw [List.filter_cons]
    split
    · simp only [Memory.rising, Bool.and_eq_true, List.all_eq_true, decide_eq_true_eq]
      exact ⟨fun d hd => hr.1 d (List.mem_filter.mp hd).1, ih hr.2⟩
    · exact ih hr.2

theorem Memory.wf_setCell (len : Nat) (cells : List (Nat × Word)) (a : Nat) (v : Word) (ha : a < len)
    (h : Memory.wf { len := len, cells := cells } = true) :
    Memory.wf { len := len, cells := Memory.setCell cells a v } = true := by
  simp only [Memory.wf, Bool.and_eq_true, List.all_eq_true, decide_eq_true_eq] at h ⊢
  simp only [Memory.setCell]
  split
  · exact ⟨Memory.rising_filter _ _ h.1, fun d hd => h.2 d (List.mem_filter.mp hd).1⟩
  · next hv =>
    refine ⟨Memory.rising_insertCell _ _ _ (Memory.rising_filter _ _ h.1) (Memory.filter_absent cells a), ?_⟩
    intro d hd
    rcases (Memory.mem_insertCell a v _ d).mp hd with rfl | hd
    · exact ⟨ha, hv⟩
    · exact h.2 d (List.mem_filter.mp hd).1

/-- A write keeps the canonical form. -/
theorem Memory.wf_write (m : Memory) (a : Int) (v : Word) (h : m.wf = true) : (m.write a v).wf = true := by
  simp only [Memory.write]
  split
  · next ha =>
    refine Memory.wf_setCell m.len m.cells a.toNat v ?_ h
    have := ha.1
    have := ha.2
    omega
  · exact h

/-- A load keeps the canonical form when the cells fit. -/
theorem Memory.wf_load (vs : List Word) (m : Memory) (a : Nat) (ha : a + vs.length ≤ m.len) (h : m.wf = true) :
    (m.load a vs).wf = true ∧ (m.load a vs).len = m.len := by
  induction vs generalizing m a with
  | nil => exact ⟨h, rfl⟩
  | cons v rest ih =>
    simp only [List.length_cons] at ha
    exact ih { m with cells := Memory.setCell m.cells a v } (a + 1) (by simp; omega)
      (Memory.wf_setCell m.len m.cells a v (by omega) h)

/-- The memory of a list of cells is in canonical form, and its length is the list's. -/
theorem Memory.wf_ofList (vs : List Word) : (Memory.ofList vs).wf = true ∧ (Memory.ofList vs).len = vs.length :=
  Memory.wf_load vs { len := vs.length, cells := [] } 0 (by simp) rfl

/-- A longer memory with the same listed cells is in canonical form. -/
theorem Memory.wf_grow (m : Memory) (n : Nat) (hn : m.len ≤ n) (h : m.wf = true) :
    Memory.wf { m with len := n } = true := by
  simp only [Memory.wf, Bool.and_eq_true, List.all_eq_true, decide_eq_true_eq] at h ⊢
  exact ⟨h.1, fun d hd => ⟨(h.2 d hd).1.trans_le hn, (h.2 d hd).2⟩⟩

/-- Placing an instruction for the next fetch keeps the canonical form. -/
theorem State.wf_loadAtFetch (s : State) (vs : List Word) (h : s.mem.wf = true) :
    (s.loadAtFetch vs).mem.wf = true :=
  (Memory.wf_load vs { s.mem with len := max s.mem.len (s.loadAddress + vs.length) } s.loadAddress
    (Nat.le_max_right _ _) (Memory.wf_grow s.mem _ (Nat.le_max_left _ _) h)).1

theorem State.reset_mem_wf : State.reset.mem.wf = true := rfl

end Sys2Proof.Machine
end

