-- ==== Sys2Proof/Laws/Operands.lean ====
section
/-! SUPPORT. What the resolver's operations and the two shared instruction shapes can do, said once. -/

namespace Sys2Proof.Machine

/-- A destination that WriteTarget returned is in bounds. -/
theorem State.destination_inBounds {s : State} {i : Nat} {d : Word} (h : s.destination i = some d) :
    s.mem.InBounds d.toInt := by
  simp only [State.destination, writeTarget] at h
  split at h
  · cases h
  · split at h
    · next hd => cases h; exact hd
    · cases h

/-- The slot of a resolved destination is in bounds. -/
theorem State.slot_inBounds_of_destination {s : State} {i : Nat} {d : Word} (h : s.destination i = some d) :
    s.mem.InBounds (s.slot i) := by
  simp only [State.destination, writeTarget] at h
  split at h
  · cases h
  · next hv => exact Memory.inBounds_of_read hv

/-- The slot of a resolved operand is in bounds. -/
theorem State.slot_inBounds_of_operand {s : State} {m : Mode} {i : Nat} {p : Word} (h : s.operand m i = some p) :
    s.mem.InBounds (s.slot i) := by
  simp only [State.operand, readOperand] at h
  split at h
  · cases h
  · next hv => exact Memory.inBounds_of_read hv

/-- ADD, MUL, LT and EQ either raise OutOfBounds, because an operand or the destination cannot be resolved, or write one
cell and advance by 4. -/
theorem binaryToMemory_cases (opc : Int) (f : Word → Word → Word) (m1 m2 : Mode) (s : State) :
    ((s.operand m1 1 = none ∨ s.operand m2 2 = none ∨ s.destination 3 = none) ∧
      binaryToMemory opc f m1 m2 s = s.raise .outOfBounds (some opc)) ∨
    (∃ p1 p2 d, s.operand m1 1 = some p1 ∧ s.operand m2 2 = some p2 ∧ s.destination 3 = some d ∧
      binaryToMemory opc f m1 m2 s = (s.store d (f p1 p2)).advance 4) := by
  simp only [binaryToMemory]
  cases h1 : s.operand m1 1 with
  | none => exact .inl ⟨.inl rfl, rfl⟩
  | some p1 =>
    cases h2 : s.operand m2 2 with
    | none => exact .inl ⟨.inr (.inl rfl), rfl⟩
    | some p2 =>
      cases h3 : s.destination 3 with
      | none => exact .inl ⟨.inr (.inr rfl), rfl⟩
      | some d => exact .inr ⟨p1, p2, d, rfl, rfl, rfl, rfl⟩

/-- JT and JF either raise OutOfBounds, because an operand cannot be resolved, or write ip alone. -/
theorem conditionalJump_cases (opc : Int) (taken : Word → Bool) (m1 m2 : Mode) (s : State) :
    ((s.operand m1 1 = none ∨ s.operand m2 2 = none) ∧
      conditionalJump opc taken m1 m2 s = s.raise .outOfBounds (some opc)) ∨
    (∃ p1 p2, s.operand m1 1 = some p1 ∧ s.operand m2 2 = some p2 ∧
      conditionalJump opc taken m1 m2 s = if taken p1 then s.jump p2 else s.advance 3) := by
  simp only [conditionalJump]
  cases h1 : s.operand m1 1 with
  | none => exact .inl ⟨.inl rfl, rfl⟩
  | some p1 =>
    cases h2 : s.operand m2 2 with
    | none => exact .inl ⟨.inr rfl, rfl⟩
    | some p2 => exact .inr ⟨p1, p2, rfl, rfl, rfl⟩

/-- IN raises InputExhausted, or OutOfBounds, or stores the next input, consumes it and advances by 2. -/
theorem execIn_cases (s : State) :
    (s.nextInput = none ∧ execIn s = .next (s.raise .inputExhausted (some 3))) ∨
    (∃ v, s.nextInput = some v ∧ s.destination 1 = none ∧ execIn s = .next (s.raise .outOfBounds (some 3))) ∨
    (∃ v d, s.nextInput = some v ∧ s.destination 1 = some d ∧
      execIn s = .next ((s.store d v).consumeInput.advance 2)) := by
  simp only [execIn]
  cases h1 : s.nextInput with
  | none => exact .inl ⟨rfl, rfl⟩
  | some v =>
    cases h2 : s.destination 1 with
    | none => exact .inr (.inl ⟨v, rfl, rfl, rfl⟩)
    | some d => exact .inr (.inr ⟨v, d, rfl, rfl, rfl⟩)

/-- OUT raises OutOfBounds, or appends its operand and advances by 2. -/
theorem execOut_cases (m1 : Mode) (s : State) :
    (s.operand m1 1 = none ∧ execOut m1 s = .next (s.raise .outOfBounds (some 4))) ∨
    (∃ p1, s.operand m1 1 = some p1 ∧ execOut m1 s = .next ((s.emit p1).advance 2)) := by
  simp only [execOut]
  cases h1 : s.operand m1 1 with
  | none => exact .inl ⟨rfl, rfl⟩
  | some p1 => exact .inr ⟨p1, rfl, rfl⟩

theorem nextInput_eq_none_iff (s : State) : s.nextInput = none ↔ s.inp.length ≤ s.cur := by
  simp [State.nextInput]

end Sys2Proof.Machine
end

