-- ==== Sys2Proof/Laws/PerInstr.lean ====
section
/-! SUPPORT. The family OpcodeDigits: the canonical word of a well-formed instruction holds its opcode in the two low
digits, and its format is the one that opcode selects. One lemma per constructor of Instr. -/

namespace Sys2Proof.Laws.OpcodeDigits

/-- Rules R52, R58, R59: the opcode and the width of an instruction can be read off its canonical word. -/
def Statement (i : Instr) : Prop :=
  i.wf = true → opcodeDigits (encode i).toInt = i.opcode ∧ formatOfOpcode (opcodeDigits (encode i).toInt) = i.format

theorem add (m1 m2 : Mode) : Statement (.add m1 m2) := by cases m1 <;> cases m2 <;> intro _ <;> decide
theorem mul (m1 m2 : Mode) : Statement (.mul m1 m2) := by cases m1 <;> cases m2 <;> intro _ <;> decide
theorem inp : Statement .inp := by intro _; decide
theorem out (m1 : Mode) : Statement (.out m1) := by cases m1 <;> intro _ <;> decide
theorem jt (m1 m2 : Mode) : Statement (.jt m1 m2) := by cases m1 <;> cases m2 <;> intro _ <;> decide
theorem jf (m1 m2 : Mode) : Statement (.jf m1 m2) := by cases m1 <;> cases m2 <;> intro _ <;> decide
theorem lt (m1 m2 : Mode) : Statement (.lt m1 m2) := by cases m1 <;> cases m2 <;> intro _ <;> decide
theorem eq (m1 m2 : Mode) : Statement (.eq m1 m2) := by cases m1 <;> cases m2 <;> intro _ <;> decide
theorem hlt : Statement .hlt := by intro _; decide

theorem illegal (opc : Int) : Statement (.illegal opc) := by
  intro h
  simp only [Instr.wf, legalOpcodes, Bool.and_eq_true, decide_eq_true_eq, List.mem_cons, List.not_mem_nil,
    or_false, not_or] at h
  obtain ⟨⟨h1, h2⟩, hn⟩ := h
  have hd : opcodeDigits (encode (.illegal opc)).toInt = opc := by
    have : (encode (.illegal opc)).toInt = opc := by
      simp only [encode, Instr.opcode, Instr.modeDigits, Int.add_zero]
      exact toInt_ofInt_of_range (by omega) (by omega)
    rw [this]
    exact opcodeDigits_of_small h1 h2
  refine ⟨hd, ?_⟩
  rw [hd]
  simp only [formatOfOpcode, Instr.format]
  obtain ⟨a1, a2, a3, a4, a5, a6, a7, a8, a9⟩ := hn
  simp [a1, a2, a3, a4, a5, a6, a7, a8, a9]

end Sys2Proof.Laws.OpcodeDigits
end

