-- ==== Sys2Proof/Laws/Phases.lean ====
section
/-! SUPPORT. What the transactions of the resolver's calls are, said once: reads of cells that memory holds, and the whole
list when the call succeeds. -/

namespace Sys2Proof.Machine

/-- A memory read that receives the cell memory holds at its address. -/
def Transaction.isReadOf (mem : Memory) : Transaction → Prop
  | .memRead a v => mem.read a = some v
  | .memWrite _ _ => False
  | .inTake _ => False
  | .outPush _ => False

theorem Transaction.isReadOf_isRead {mem : Memory} {x : Transaction} (h : x.isReadOf mem) : x.isRead = true := by
  cases x <;> first | rfl | exact h.elim

theorem Transaction.isReadOf_inBounds {mem : Memory} {x : Transaction} (h : x.isReadOf mem) : x.inBounds mem := by
  cases x <;> first | exact Memory.inBounds_of_read h | exact h.elim

/-- A Read call makes only memory reads, and each receives the cell memory holds. -/
theorem readTransactions_isReadOf {m : Mode} {a : Int} {mem : Memory} {x : Transaction}
    (h : x ∈ readTransactions m a mem) : x.isReadOf mem := by
  simp only [readTransactions] at h
  split at h
  · cases h
  · next v hv =>
    split at h
    · cases List.mem_singleton.mp h; exact hv
    · split at h
      · cases List.mem_singleton.mp h; exact hv
      · next hp =>
        rcases List.mem_cons.mp h with rfl | h
        · exact hv
        · cases List.mem_singleton.mp h; exact hp

/-- A WriteTarget call makes only memory reads, and each receives the cell memory holds. -/
theorem targetTransactions_isReadOf {a : Int} {mem : Memory} {x : Transaction}
    (h : x ∈ targetTransactions a mem) : x.isReadOf mem := by
  simp only [targetTransactions] at h
  split at h
  · cases h
  · next hv => cases List.mem_singleton.mp h; exact hv

/-- The transactions of a Read call that succeeds: the slot, and the pointed cell when it is positional. -/
theorem readTransactions_of_operand {m : Mode} {a : Int} {mem : Memory} {v p : Word} (hv : mem.read a = some v)
    (hp : readOperand m a mem = some p) :
    readTransactions m a mem = [.memRead a v] ++ (if m = .pos then [.memRead v.toInt p] else []) := by
  simp only [readOperand, hv] at hp
  cases m <;> simp_all [readTransactions]

/-- The transactions of a WriteTarget call that succeeds: the slot, which holds the destination. -/
theorem targetTransactions_of_destination {a : Int} {mem : Memory} {d : Word} (h : writeTarget a mem = some d) :
    targetTransactions a mem = [.memRead a d] := by
  simp only [writeTarget] at h
  split at h
  · cases h
  · next hv => split at h <;> simp_all [targetTransactions]

end Sys2Proof.Machine
end

