-- ==== Sys2Proof/Tests/Slice0.lean ====
section
/-! SUPPORT. Tests of the model against the tables and vectors of spec/, one step each, and for every obligation that has
hypotheses a concrete state and operands that meet them. Expected values are those of 95_test_vectors.md, of the worked
tables of 40_decoder.md and 41_resolver.md, or computed by hand from the rules. -/

open Sys2Proof Sys2Proof.Machine

namespace Sys2Proof.Tests

/-- The state after reset with the given cells and the given input. -/
def boot (cells inp : List Word) : State := State.ofLaunch { mem0 := Memory.ofList cells, inp := inp }

/-- The same state with ip elsewhere. -/
def bootAt (ip : Word) (cells inp : List Word) : State := { boot cells inp with ip := ip }

/-- The latches with every value zero, for the hardware view. -/
def latches0 : Latches :=
  { ir := 0, opc := 0, m1 := .pos, m2 := .pos, m3 := .pos, p1 := 0, p2 := 0, dest := 0, inv := 0 }

/-- The state after one step. -/
def stepped (s : State) : Option State := nextOf (step s)

/-! ### Well-formedness: each check refuses a term -/

theorem test_wf_opcode_too_low : (Instr.illegal (-100)).wf = false := by decide
theorem test_wf_opcode_too_high : (Instr.illegal 100).wf = false := by decide
theorem test_wf_opcode_is_legal : (Instr.illegal 5).wf = false := by decide
theorem test_wf_bounds_accepted : (Instr.illegal (-99)).wf = true ∧ (Instr.illegal 98).wf = true := by decide

/-! ### Decoding: words written out from the encoding (30_encoding.md section 7, 40_decoder.md section 2, DEC1 to DEC15) -/

theorem test_decode_add : decode 1 = .add .pos .pos ∧ decode 101 = .add .imm .pos ∧ decode 1001 = .add .pos .imm ∧
    decode 10001 = .add .pos .pos ∧ decode 9901 = .add .pos .pos ∧ decode 100001 = .add .pos .pos := by decide
theorem test_decode_mul : decode 2 = .mul .pos .pos ∧ decode 21002 = .mul .pos .imm := by decide
theorem test_decode_in : decode 3 = .inp ∧ decode 1000000000000001103 = .inp ∧ decode 203 = .inp := by decide
theorem test_decode_out : decode 4 = .out .pos ∧ decode 104 = .out .imm ∧ decode 204 = .out .pos := by decide
theorem test_decode_jt : decode 1005 = .jt .pos .imm ∧ decode 105 = .jt .imm .pos := by decide
theorem test_decode_jf : decode 1006 = .jf .pos .imm ∧ decode 106 = .jf .imm .pos := by decide
theorem test_decode_lt : decode 1107 = .lt .imm .imm ∧ decode 9223372036854775807 = .lt .pos .pos := by decide
theorem test_decode_eq : decode 1108 = .eq .imm .imm ∧ decode 8 = .eq .pos .pos := by decide
theorem test_decode_hlt : decode 99 = .hlt ∧ decode 199 = .hlt ∧ decode 99999 = .hlt := by decide
theorem test_decode_illegal : decode 0 = .illegal 0 ∧ decode 1234567 = .illegal 67 ∧ decode (-1105) = .illegal (-5) ∧
    decode (-99) = .illegal (-99) ∧ decode (-9223372036854775808) = .illegal (-8) := by decide
theorem test_decoder_keeps_all_three_modes :
    decodeWord 11101 = { opc := 1, m1 := .imm, m2 := .imm, m3 := .imm } ∧
    decodeWord 1100 = { opc := 0, m1 := .imm, m2 := .imm, m3 := .pos } ∧
    decodeWord (-1199) = { opc := -99, m1 := .pos, m2 := .pos, m3 := .pos } := by decide
theorem test_decoder_ports : decoderPorts (-99) = { decOpc := 157, decM1 := 0, decM2 := 0, decM3 := 0 } ∧
    decoderPorts 10104 = { decOpc := 4, decM1 := 1, decM2 := 0, decM3 := 1 } := by decide
theorem test_canonical_words : encode (.add .imm .imm) = 1101 ∧ encode (.jf .pos .imm) = 1006 ∧ encode .inp = 3 ∧
    encode .hlt = 99 ∧ encode (.out .imm) = 104 := by decide

/-! ### The resolver (RES1 to RES17; 41_resolver.md section 4) -/

/-- The memory of section 2.2 of the vectors. -/
def resMem : Memory := Memory.ofList [1005, 2, 7, 2, 3, 0, 3, 99, -1, 8]

theorem test_read : readOperand .imm 2 resMem = some 7 ∧ readOperand .pos 2 resMem = some 99 ∧
    readOperand .imm 8 resMem = some (-1) ∧ readOperand .pos 8 resMem = none ∧ readOperand .imm 10 resMem = none ∧
    readOperand .imm (-1) resMem = none ∧ readOperand .pos 0 resMem = none := by decide
theorem test_write_target : writeTarget 3 resMem = some 2 ∧ writeTarget 7 resMem = none ∧ writeTarget 8 resMem = none ∧
    writeTarget 9 resMem = some 8 ∧ writeTarget 10 resMem = none := by decide
theorem test_resolver_ports : resolverPorts .read .pos 8 resMem = { resValue := none, resOob := 1 } ∧
    resolverPorts .write .imm 5 resMem = { resValue := some 0, resOob := 0 } := by decide

/-! ### One step of each instruction -/

/-- AM10: the sum wraps. -/
theorem test_add_wraps : stepped (boot [1101, 9223372036854775807, 1, 0, 99] []) =
    some { boot [-9223372036854775808, 9223372036854775807, 1, 0, 99] [] with ip := 4 } := by decide
/-- Vector 1.2: destination, sources and the word are one cell. -/
theorem test_add_over_its_own_word : stepped (boot [1, 0, 0, 0, 99] []) =
    some { boot [2, 0, 0, 0, 99] [] with ip := 4 } := by decide
/-- AM11: the product wraps. -/
theorem test_mul_wraps : stepped (boot [1102, 3037000500, 3037000500, 0, 99] []) =
    some { boot [-9223372036709301616, 3037000500, 3037000500, 0, 99] [] with ip := 4 } := by decide
/-- AM16, for MUL by hand: a destination equal to N is out of bounds, and nothing is written. -/
theorem test_mul_destination_out_of_bounds : stepped (boot [1102, 1, 1, 5, 99] []) =
    some { boot [1102, 1, 1, 5, 99] [] with
      status := .faulted, fault := some { kind := .outOfBounds, ip := 0, opc := some 2 } } := by decide
/-- IO1: the mode digit of IN is ignored. -/
theorem test_in_is_positional : stepped (boot [103, 0, 99] [7]) =
    some { boot [7, 0, 99] [7] with ip := 2, cur := 1 } := by decide
/-- IO6 and IO7: the exhausted input is tested first, and a bad destination consumes nothing. -/
theorem test_in_faults : stepped (boot [3, 5, 99] []) =
      some { boot [3, 5, 99] [] with
        status := .faulted, fault := some { kind := .inputExhausted, ip := 0, opc := some 3 } } ∧
    stepped (boot [3, 5, 99] [1]) =
      some { boot [3, 5, 99] [1] with
        status := .faulted, fault := some { kind := .outOfBounds, ip := 0, opc := some 3 } } := by decide
/-- IO12: the mode digit 2 is positional. -/
theorem test_out_positional : stepped (boot [204, 2, 99] []) =
    some { boot [204, 2, 99] [] with ip := 2, out := [99] } := by decide
/-- IO15: the parameter slot is outside memory. -/
theorem test_out_slot_out_of_bounds : stepped (boot [104] []) =
    some { boot [104] [] with
      status := .faulted, fault := some { kind := .outOfBounds, ip := 0, opc := some 4 } } := by decide
/-- JP5: a negative condition is true. -/
theorem test_jt_negative_is_true : stepped (boot [1105, -1, 4, 98, 99] []) =
    some { boot [1105, -1, 4, 98, 99] [] with ip := 4 } := by decide
/-- JP13: the second operand is resolved though the jump is not taken. -/
theorem test_jt_resolves_eagerly : stepped (boot [105, 0, 99] []) =
    some { boot [105, 0, 99] [] with
      status := .faulted, fault := some { kind := .outOfBounds, ip := 0, opc := some 5 } } := by decide
/-- JP7: both operands positional. -/
theorem test_jf_positional : stepped (boot [6, 4, 5, 99, 0, 3] []) =
    some { boot [6, 4, 5, 99, 0, 3] [] with ip := 3 } := by decide
/-- JP10, for JF by hand: the target is taken verbatim, and only the next fetch finds it out of bounds. -/
theorem test_jf_target_unchecked : stepped (boot [1106, 0, -1] []) =
    some { boot [1106, 0, -1] [] with ip := -1 } := by decide
/-- CM2: the comparison is signed. -/
theorem test_lt_signed : stepped (boot [1107, 0, -1, 0, 99] []) =
    some { boot [0, 0, -1, 0, 99] [] with ip := 4 } := by decide
/-- CM3: no subtraction is made. -/
theorem test_lt_extremes : stepped (boot [1107, -9223372036854775808, 9223372036854775807, 0, 99] []) =
    some { boot [1, -9223372036854775808, 9223372036854775807, 0, 99] [] with ip := 4 } := by decide
/-- CM12: the answer is exactly 1. -/
theorem test_eq_true : stepped (boot [1108, 1, 1, 0, 99, 7, 7] []) =
    some { boot [1, 1, 1, 0, 99, 7, 7] [] with ip := 4 } := by decide
/-- CM7: the extremes differ. -/
theorem test_eq_false : stepped (boot [1108, -9223372036854775808, 9223372036854775807, 0, 99] []) =
    some { boot [0, -9223372036854775808, 9223372036854775807, 0, 99] [] with ip := 4 } := by decide
/-- HU1: HLT leaves ip at its word. -/
theorem test_hlt : stepped (boot [199] []) = some { boot [199] [] with status := .halted } := by decide
/-- HU12: -99 is no HLT. -/
theorem test_illegal_negative : stepped (boot [-99] []) =
    some { boot [-99] [] with
      status := .faulted, fault := some { kind := .unknownOpcode, ip := 0, opc := some (-99) } } := by decide
/-- HU16: with N = 0 the first fetch faults and there is no opcode. -/
theorem test_fetch_out_of_bounds : stepped State.reset =
    some { State.reset with
      status := .faulted, fault := some { kind := .outOfBounds, ip := 0, opc := none } } := by decide
/-- The second step of vector 1.4: cell 4 is executed as it was written. -/
theorem test_store_seen_by_fetch : stepped (bootAt 4 [1, 1, 1, 4, 2, 5, 6, 0, 99] []) =
    some (bootAt 8 [30, 1, 1, 4, 2, 5, 6, 0, 99] []) := by decide

/-! ### Memory, ports, result, assembly, and the host's two entries -/

/-- Writing the value an unlisted cell holds takes the cell off the list. -/
theorem test_memory_canonical : (Memory.ofList [5, 6]).write 1 0 = Memory.ofList [5, 0] ∧
    (Memory.ofList [5, 0]).cells = [(0, 5)] ∧ (Memory.ofList [5, 0]).wf = true := by decide
theorem test_memory_not_canonical : Memory.wf { len := 2, cells := [(0, 0)] } = false ∧
    Memory.wf { len := 2, cells := [(1, 5), (0, 5)] } = false ∧ Memory.wf { len := 1, cells := [(1, 5)] } = false := by
  decide
/-- 42_dispatcher.md section 8 and 10_state.md section 6: the codes at the ports of a faulted machine. -/
theorem test_ports_of_a_fault :
    (State.raise (boot [104] [7]) .outOfBounds (some 4)).ports =
      { len := 1, inAvail := 1, inData := some 7, status := 2, ip := 0, faultKind := 3, faultIp := some 0, faultOpv := some 1,
        faultOpc := some 4 } := by decide
/-- A failed fetch drives fault_opv to 0 and gives no opcode, and without a record only fault_kind has a value. -/
theorem test_fault_ports_without_opcode :
    ((boot [] []).raise .outOfBounds none).ports.faultOpv = some 0 ∧
    ((boot [] []).raise .outOfBounds none).ports.faultOpc = none ∧
    (boot [] []).ports.faultKind = 0 ∧ (boot [] []).ports.faultOpv = none ∧ (boot [] []).ports.faultIp = none := by decide
theorem test_result : (boot [99] []).result = none ∧
    (State.halt (boot [99] [])).result = some (.halted [] (Memory.ofList [99]) 0 0) := by decide
/-- Program P2 of the vectors, section 3.2, from its listing. -/
theorem test_assemble : assemble [.add (.imm (.lit 1100)) (.imm (.lit 1)) (.label 0), .label 0, .data (.lit 0),
    .data (.lit 44), .data (.lit 55), .data (.lit 8), .label 1, .data (.lit 0)] =
    some [1101, 1100, 1, 4, 0, 44, 55, 8, 0] := by decide
theorem test_decode_table_word : decodeTableWord 8 99 = some .hlt ∧ decodeTableWord 64 1101 = some (.add .imm .imm) ∧
    decodeTableWord 128 (1107 + 18446744073709551616 * 1108) = some (.lt .imm .imm) := by decide
/-- The instruction stands where the next step fetches it, its operand words zero. -/
theorem test_with_fetch_word : stepped (State.reset.withFetchWord 64 1101) = some { boot [0, 0, 0, 0] [] with ip := 4 } ∧
    stepped (State.withFetchWord (bootAt 2 [5, 5, 5] []) 64 104) =
      some { bootAt 4 [5, 5, 104, 0, 0, 0] [] with out := [0] } := by decide
theorem test_phases_of_in : (stepByPhases latches0 (boot [3, 0, 99] [7])).2 =
    [.memRead 0 3, .memRead 1 0, .memWrite 0 7, .inTake 7] := by decide
/-- A failed pointer check leaves the slot read alone, and a positional operand makes two reads. -/
theorem test_phases_of_out : (stepByPhases latches0 (boot [4, 2] [])).2 = [.memRead 0 4, .memRead 1 2] ∧
    (stepByPhases latches0 (boot [4, 0] [])).2 = [.memRead 0 4, .memRead 1 0, .memRead 0 4, .outPush 4] := by decide

/-! ### Witnesses: the hypotheses of each obligation are met, at boundary values where it has several clauses -/

theorem witness_DecoderReadsDecimalDigits :
    0 ≤ (0 : Word).toInt ∧ 0 ≤ (9223372036854775807 : Word).toInt ∧ 0 ≤ (11111 : Word).toInt := by decide
theorem witness_NegativeWordsSelectNoInstruction :
    (-1 : Word).toInt < 0 ∧ (-9223372036854775808 : Word).toInt < 0 := by decide
theorem witness_DecodingIsSymmetricInTheSign :
    (-9223372036854775807 : Word).toInt ≠ s64Min ∧ (0 : Word).toInt ≠ s64Min := by decide
theorem witness_OnlyFiveLowDigitsMatter : 0 ≤ (100001 : Word).toInt ∧ 0 ≤ (99999 : Word).toInt := by decide
theorem witness_ComposedWordsDecode : (99 : Nat) ≤ 99 ∧ (9 : Nat) ≤ 9 ∧ (1 : Nat) ≤ 9 ∧ (0 : Nat) ≤ 99 := by decide
theorem witness_IgnoredModeDigitsChangeNothing :
    (decodeWord 10001).opc = (decodeWord 1).opc ∧ (decodeWord 10001).m1 = (decodeWord 1).m1 ∧
    (decodeWord 10001).m2 = (decodeWord 1).m2 ∧ (decodeWord 11104).opc = 4 ∧
    (decodeWord 11104).opc = (decodeWord 104).opc ∧ (decodeWord 11104).m1 = (decodeWord 104).m1 ∧
    (decodeWord 103).opc = 3 ∧ (decodeWord 103).opc = (decodeWord 3).opc ∧ (decodeWord 11199).opc = 99 ∧
    (decodeWord 11199).opc = (decodeWord 99).opc ∧ (decodeWord 109).opc ∉ legalOpcodes ∧
    (decodeWord 109).opc = (decodeWord 9).opc := by decide
theorem witness_OpcodeMapIsClosed :
    (decodeWord 1).opc = 1 ∧ (decodeWord 2).opc = 2 ∧ (decodeWord 3).opc = 3 ∧ (decodeWord 4).opc = 4 ∧
    (decodeWord 5).opc = 5 ∧ (decodeWord 6).opc = 6 ∧ (decodeWord 7).opc = 7 ∧ (decodeWord 8).opc = 8 ∧
    (decodeWord 99).opc = 99 ∧ (decodeWord 0).opc ∉ [1, 2, 3, 4, 5, 6, 7, 8, 99] ∧
    (decodeWord 9).opc ∉ [1, 2, 3, 4, 5, 6, 7, 8, 99] ∧ (decodeWord 98).opc ∉ [1, 2, 3, 4, 5, 6, 7, 8, 99] := by decide
theorem witness_DecodeOfEncodeIsIdentity : (Instr.lt .imm .pos).wf = true ∧ (Instr.illegal (-99)).wf = true := by decide
theorem witness_AccessibleAddressesAreZeroToLength :
    (-1 : Int) < 0 ∧ ((Memory.ofList [7]).len : Int) ≤ 1 ∧ (Memory.ofList []).len = 0 := by decide
theorem witness_ResolverFollowsItsTable :
    ¬ resMem.InBounds 10 ∧ ¬ resMem.InBounds (-1) ∧ resMem.read 9 = some 8 ∧ resMem.InBounds (8 : Word).toInt ∧
    resMem.read 0 = some 1005 ∧ ¬ resMem.InBounds (1005 : Word).toInt ∧ resMem.read 8 = some (-1) ∧
    ¬ resMem.InBounds (-1 : Word).toInt := by decide

/-- An ADD whose sum is outside s64, and one whose destination is the last cell. -/
theorem witness_AddStoresTheWrappedSum :
    let s := boot [101, 9223372036854775807, 0, 3] []
    s.mem.len ≤ Config.maxLen ∧ s.operand .imm 1 = some 9223372036854775807 ∧ s.operand .pos 2 = some 101 ∧
    s.destination 3 = some 3 := by decide
theorem witness_MulStoresTheWrappedProduct :
    let s := boot [1102, -9223372036854775808, -1, 0] []
    s.mem.len ≤ Config.maxLen ∧ s.operand .imm 1 = some (-9223372036854775808) ∧ s.operand .imm 2 = some (-1) ∧
    s.destination 3 = some 0 := by decide
theorem witness_LessThanStoresOneOrZero :
    let s := boot [107, -1, 0, 3] []
    (decodeWord 107).opc = 7 ∧ s.mem.len ≤ Config.maxLen ∧ s.operand .imm 1 = some (-1) ∧ s.operand .pos 2 = some 107 ∧
    s.destination 3 = some 3 := by decide
theorem witness_LessThanStoresOneOrZero_raise : (boot [7, 4, 0, 0] []).addressOutOfBounds (.lt .pos .pos) :=
  .inl (.inr ⟨rfl, 4, by decide, by decide⟩)
theorem witness_EqualsStoresOneOrZero :
    let s := boot [8, 0, 0, 0] []
    (decodeWord 8).opc = 8 ∧ s.mem.len ≤ Config.maxLen ∧ s.operand .pos 1 = some 8 ∧ s.operand .pos 2 = some 8 ∧
    s.destination 3 = some 0 := by decide
theorem witness_EqualsStoresOneOrZero_raise : (boot [1108, 1, 1] []).addressOutOfBounds (.eq .imm .imm) :=
  .inr (.inr (.inl (by decide)))
theorem witness_InputStoresTheNextValue :
    let s := boot [3, 1] [7]
    s.mem.len ≤ Config.maxLen ∧ s.inp[s.cur]? = some 7 ∧ s.destination 1 = some 1 ∧
    (boot [3, 0] []).cur = (boot [3, 0] []).inp.length ∧ (boot [3, 2] [7]).cur < (boot [3, 2] [7]).inp.length := by decide
theorem witness_InputStoresTheNextValue_raise :
    (boot [3, 2] [7]).targetOutOfBounds 1 ∧ (boot [3] [7]).targetOutOfBounds 1 :=
  ⟨.inr ⟨2, by decide, by decide⟩, .inl (by decide)⟩
theorem witness_OutputAppendsTheOperand :
    (decodeWord 104).opc = 4 ∧ (boot [4, 0] []).mem.len ≤ Config.maxLen ∧ (boot [4, 0] []).operand .pos 1 = some 4 ∧
    (boot [104, -7] []).operand .imm 1 = some (-7) := by decide
theorem witness_OutputAppendsTheOperand_raise : (boot [104] []).addressOutOfBounds (.out .imm) := .inl (by decide)
theorem witness_JumpsFollowTheirCondition :
    (boot [1105, 1, -1] []).mem.len ≤ Config.maxLen ∧ (boot [1105, 1, -1] []).operand .imm 1 = some 1 ∧
    (boot [1105, 1, -1] []).operand .imm 2 = some (-1) ∧ (boot [1105, 0, 3] []).operand .imm 1 = some 0 ∧
    (boot [1105, 0, 3] []).operand .imm 2 = some 3 := by decide
theorem witness_JumpOutOfBoundsFaultsAtTheNextFetch :
    let s := boot [1105, 1, 3] []
    s.status = .running ∧ s.current = some (.jt .imm .imm) ∧ s.jumpCondition (.jt .imm .imm) ∧
    s.operand .imm 2 = some 3 ∧ ¬ s.mem.InBounds (3 : Word).toInt :=
  ⟨rfl, by decide, ⟨1, by decide, by decide⟩, by decide, by decide⟩
theorem witness_UnrecognisedOpcodeRaises :
    (decodeWord 0).opc ∉ [1, 2, 3, 4, 5, 6, 7, 8, 99] ∧ (decodeWord (-99)).opc ∉ [1, 2, 3, 4, 5, 6, 7, 8, 99] := by decide
theorem witness_UnresolvableOperandRaisesOutOfBounds :
    (boot [3, 2] [7]).addressOutOfBounds .inp ∧ (boot [3, 2] [7]).cur < (boot [3, 2] [7]).inp.length ∧
    (boot [1, 0, 0, 4] []).addressOutOfBounds (.add .pos .pos) :=
  ⟨.inr ⟨2, by decide, by decide⟩, by decide, .inr (.inr (.inr ⟨4, by decide, by decide⟩))⟩

/-- Running states of the invariant whose step answers a next state: an exhausted IN, an IN with input, an illegal word,
a fetch out of bounds, an operand out of bounds, and a HLT. They meet the hypotheses of InputExhaustedExactlyByInAtTheEnd,
UnknownOpcodeExactlyForIllegalWords, OutOfBoundsExactlyForBadAddresses, RunsEndOnlyByHaltOrFatalCondition and
CursorMovesOnlyByIn, on both sides of each equivalence. -/
theorem witness_ExactFatalConditions :
    (boot [3, 0] []).Inv ∧ (boot [3, 0] []).status = .running ∧
    (stepped (boot [3, 0] [])).map (fun t => t.fault.map FaultRecord.kind) = some (some .inputExhausted) ∧
    (boot [3, 0] [7]).Inv ∧ (stepped (boot [3, 0] [7])).map (fun t => t.fault.map FaultRecord.kind) = some none ∧
    (boot [98] []).Inv ∧
    (stepped (boot [98] [])).map (fun t => t.fault.map FaultRecord.kind) = some (some .unknownOpcode) ∧
    State.reset.Inv ∧ (stepped State.reset).map (fun t => t.fault.map FaultRecord.kind) = some (some .outOfBounds) ∧
    (boot [4, 2] []).Inv ∧
    (stepped (boot [4, 2] [])).map (fun t => t.fault.map FaultRecord.kind) = some (some .outOfBounds) ∧
    (boot [99] []).Inv ∧ (stepped (boot [99] [])).map State.status = some .halted := by decide
theorem witness_FaultsArePrecise :
    ∃ t, (boot [4, 2] []).status = .running ∧ step (boot [4, 2] []) = .next t ∧ t.status = .faulted :=
  ⟨_, rfl, rfl, rfl⟩
theorem witness_FetchOutOfBoundsRaises :
    State.reset.status = .running ∧ ¬ State.reset.mem.InBounds State.reset.ip.toInt ∧
    ¬ (boot [99] []).mem.InBounds (bootAt 1 [99] []).ip.toInt ∧
    ¬ (boot [99] []).mem.InBounds (bootAt (-1) [99] []).ip.toInt := by decide
theorem witness_StepRunsTheDecodedInstruction :
    (boot [99] []).status = .running ∧ (boot [99] []).mem.read (boot [99] []).ip.toInt = some 99 := by decide
theorem witness_EndedRunsStayAsTheyAre :
    (boot [99] []).halt.status ≠ .running ∧ ((boot [] []).raise .outOfBounds none).status ≠ .running := by decide

/-- A running state of the invariant at each instruction, and the ip after its step. -/
theorem witness_EveryInstructionControlsIpByTheTable :
    ∀ c ∈ ([([1, 0, 0, 0], [], .add .pos .pos, 4), ([2, 0, 0, 0], [], .mul .pos .pos, 4),
        ([7, 0, 0, 0], [], .lt .pos .pos, 4), ([8, 0, 0, 0], [], .eq .pos .pos, 4), ([3, 0], [1], .inp, 2),
        ([4, 0], [], .out .pos, 2), ([1105, 1, 9], [], .jt .imm .imm, 9), ([1105, 0, 9], [], .jt .imm .imm, 3),
        ([1106, 0, 9], [], .jf .imm .imm, 9), ([1106, 1, 9], [], .jf .imm .imm, 3), ([99], [], .hlt, 0),
        ([0], [], .illegal 0, 0)] : List (List Word × List Word × Instr × Word)),
      (boot c.1 c.2.1).Inv ∧ (boot c.1 c.2.1).status = .running ∧ (boot c.1 c.2.1).current = some c.2.2.1 ∧
      (stepped (boot c.1 c.2.1)).map State.ip = some c.2.2.2 := by decide
theorem witness_CursorMovesOnlyByIn :
    (boot [3, 0] [7]).Inv ∧ (boot [3, 0] [7]).status = .running ∧ (boot [3, 0] [7]).current = some .inp ∧
    (stepped (boot [3, 0] [7])).map State.status = some .running ∧
    (stepped (boot [3, 0] [7])).map State.cur = some 1 ∧ (boot [3, 2] [7]).Inv ∧
    (stepped (boot [3, 2] [7])).map State.status = some .faulted := by decide
theorem witness_OutputGrowsOnlyByOut :
    (boot [104, 5] []).status = .running ∧ (boot [104, 5] []).current = some (.out .imm) ∧
    (boot [104, 5] []).operand .imm 1 = some 5 ∧ (stepped (boot [104, 5] [])).map State.out = some [5] ∧
    (boot [99] []).current = some .hlt ∧ (stepped (boot [99] [])).map State.out = some [] := by decide
theorem witness_OnlyTheDestinationCellChanges :
    ∃ t, step (boot [1, 0, 0, 3] []) = .next t ∧ t.mem.read 3 ≠ (boot [1, 0, 0, 3] []).mem.read 3 :=
  ⟨_, rfl, by decide⟩
/-- The first step of vector 1.4 stores into the cell fetched next, and the second step of P2 (95_test_vectors.md
section 3.2) into another; here also a store into a slot of the next instruction. -/
theorem witness_StoresAreSeenByTheNextFetch :
    let s := boot [1101, 1, 1, 4, 99] []
    let u := boot [1101, 1, 1, 5, 104, 0, 99] []
    s.status = .running ∧ s.current = some (.add .imm .imm) ∧ s.storeTarget (.add .imm .imm) = some 4 ∧
    s.storedValue (.add .imm .imm) = some 2 ∧ (stepped s).map State.ip = some 4 ∧
    u.current = some (.add .imm .imm) ∧ u.storeTarget (.add .imm .imm) = some 5 ∧
    u.storedValue (.add .imm .imm) = some 2 ∧ (stepped u).map State.ip = some 4 ∧
    (stepped u).map (fun t => t.slot 1) = some 5 := by decide
theorem witness_StoringInstructionsChangeOneCell :
    (∃ t, exec (.add .pos .pos) (boot [1, 0, 0, 3] []) = .next t ∧
      (boot [1, 0, 0, 3] []).storeTarget (.add .pos .pos) = some 3 ∧ t.status = .running) ∧
    (∃ t, exec .inp (boot [3, 2] [7]) = .next t ∧ (boot [3, 2] [7]).storeTarget .inp = none ∧ t.status = .faulted) :=
  ⟨⟨_, rfl, by decide, rfl⟩, ⟨_, rfl, by decide, rfl⟩⟩
theorem witness_OtherInstructionsChangeNoCell :
    (∃ t, exec (.out .imm) (boot [104, 5] []) = .next t ∧ t.status = .running) ∧
    (∃ t, exec (.jt .imm .imm) (boot [1105, 1, 0] []) = .next t ∧ t.status = .running) ∧
    (∃ t, exec (.jf .pos .pos) (boot [6] []) = .next t ∧ t.status = .faulted) ∧
    (∃ t, exec .hlt (boot [99] []) = .next t ∧ t.status = .halted) ∧
    (∃ t, exec (.illegal 0) (boot [0] []) = .next t ∧ t.status = .faulted) :=
  ⟨⟨_, rfl, rfl⟩, ⟨_, rfl, rfl⟩, ⟨_, rfl, rfl⟩, ⟨_, rfl, rfl⟩, ⟨_, rfl, rfl⟩⟩
theorem witness_EveryLaunchMeetsTheInvariant :
    Launch.nothing.wf = true ∧ Launch.wf { mem0 := Memory.ofList [1, 0, 0, 0, 99], inp := [1] } = true ∧
    Launch.wf { mem0 := { len := Config.maxLen, cells := [] }, inp := [] } = true := by decide
theorem witness_EveryStepKeepsTheInvariant :
    (∃ t, (boot [3, 0, 99] [7]).Inv ∧ step (boot [3, 0, 99] [7]) = .next t ∧ t.status = .running) ∧
    (∃ t, (boot [3, 0, 99] []).Inv ∧ step (boot [3, 0, 99] []) = .next t ∧ t.status = .faulted) ∧
    (∃ t, (boot [99] []).halt.Inv ∧ step (boot [99] []).halt = .next t) :=
  ⟨⟨_, by decide, rfl, rfl⟩, ⟨_, by decide, rfl, rfl⟩, ⟨_, by decide, rfl⟩⟩
/-- At the last two cells of memory, where ip reaches N. -/
theorem witness_IncrementsNeverPassTheEnd :
    ∃ t, (bootAt 1 [0, 104, 5] []).Inv ∧ (bootAt 1 [0, 104, 5] []).status = .running ∧
      ¬ (bootAt 1 [0, 104, 5] []).takesJump ∧ step (bootAt 1 [0, 104, 5] []) = .next t ∧ t.status = .running ∧
      t.ip = 3 := by
  refine ⟨_, by decide, rfl, ?_, rfl, rfl, by decide⟩
  rintro ⟨i, _, hi, hj, _⟩
  cases Option.some.inj ((by decide : (bootAt 1 [0, 104, 5] []).current = some (.out .imm)).symm.trans hi)
  exact hj
theorem witness_JumpToItselfNeverEnds :
    let s := boot [1105, 1, 0] []
    s.status = .running ∧ s.current = some (.jt .imm .imm) ∧ s.jumpCondition (.jt .imm .imm) ∧
    s.operand .imm 2 = some s.ip :=
  ⟨rfl, by decide, ⟨1, by decide, by decide⟩, by decide⟩

/-- Every state of the run of the one-cell program HLT is the state before its first step or the halted state. -/
theorem after_of_halt_program (k : Nat) (t : State) (h : (boot [99] []).after k = some t) :
    t = boot [99] [] ∨ t = (boot [99] []).halt := by
  cases k with
  | zero => exact .inl (Option.some.inj h).symm
  | succ k =>
    have ended : ∀ n, (boot [99] []).halt.after n = some (boot [99] []).halt := by
      intro n
      induction n with
      | zero => rfl
      | succ n ih => exact ih
    exact .inr (Option.some.inj ((ended k).symm.trans h)).symm
theorem witness_RunsWithoutTakenJumpsEnd :
    Launch.wf { mem0 := Memory.ofList [99], inp := [] } = true ∧
    (∀ k t, (boot [99] []).after k = some t → t.status = .running → ¬ t.takesJump) := by
  refine ⟨by decide, fun k t h hr => ?_⟩
  rcases after_of_halt_program k t h with rfl | rfl
  · rintro ⟨i, _, hi, hj, _⟩
    cases Option.some.inj ((by decide : (boot [99] []).current = some .hlt).symm.trans hi)
    exact hj
  · exact absurd hr (by decide)
/-- A jump whose condition holds and whose target cannot be resolved is not taken, and its step ends the run. -/
theorem witness_RunsWithoutTakenJumpsEnd_unresolvable :
    (boot [105, 1, 99] []).jumpCondition (.jt .imm .pos) ∧ ¬ (boot [105, 1, 99] []).takesJump ∧
    (stepped (boot [105, 1, 99] [])).map State.status = some .faulted := by
  refine ⟨⟨1, by decide, by decide⟩, ?_, by decide⟩
  rintro ⟨i, _, hi, _, ht⟩
  cases Option.some.inj ((by decide : (boot [105, 1, 99] []).current = some (.jt .imm .pos)).symm.trans hi)
  exact absurd ((by decide : (boot [105, 1, 99] []).operand .pos 2 = none).symm.trans ht) (by simp)
theorem witness_ArithmeticRunsEnd :
    Launch.wf { mem0 := Memory.ofList [99], inp := [] } = true ∧
    (∀ k t i, (boot [99] []).after k = some t → t.status = .running → t.current = some i →
      (∃ m1 m2, i = .add m1 m2 ∨ i = .mul m1 m2) ∨ i = .hlt) := by
  refine ⟨by decide, fun k t i h hr hi => .inr ?_⟩
  rcases after_of_halt_program k t h with rfl | rfl
  · exact Option.some.inj (hi.symm.trans (by decide))
  · exact absurd hr (by decide)
theorem witness_NoInstructionReadsTheOutput :
    ∃ t, step (boot [104, 5] []) = .next t ∧ t.out = [5] := ⟨_, rfl, by decide⟩
theorem witness_OnlyInReadsTheInput :
    ∃ t, (boot [104, 5] [7]).current ≠ some .inp ∧ step (boot [104, 5] [7]) = .next t := ⟨_, by decide, rfl⟩
theorem witness_EveryIssuedAccessIsInBounds :
    Transaction.memWrite 1 7 ∈ (stepByPhases latches0 (boot [3, 1] [7])).2 := by decide
theorem witness_ReadsComeBeforeTheOneWrite :
    (stepByPhases latches0 (boot [3, 2] [7])).1.status = .faulted ∧ (boot [99] []).halt.status ≠ .running := by decide
theorem witness_EveryReadReceivesTheStoredCell :
    Transaction.memRead 0 4 ∈ (stepByPhases latches0 (boot [4, 0] [])).2 := by decide
theorem witness_FourCellInstructionsAccessMemoryInOrder :
    let s := boot [101, 5, 0, 3] []
    s.status = .running ∧ s.fetch = some 101 ∧ decode 101 = .add .imm .pos ∧ s.mem.read (s.slot 1) = some 5 ∧
    s.operand .imm 1 = some 5 ∧ s.mem.read (s.slot 2) = some 0 ∧ s.operand .pos 2 = some 101 ∧
    s.destination 3 = some 3 ∧ s.storedValue (.add .imm .pos) = some 106 := by decide
theorem witness_ShorterInstructionsIssueTheirAccesses :
    (boot [3, 1] [7]).status = .running ∧ (boot [3, 1] [7]).fetch = some 3 ∧ decode 3 = .inp ∧
    (boot [3, 1] [7]).inp[(boot [3, 1] [7]).cur]? = some 7 ∧ (boot [3, 1] [7]).destination 1 = some 1 ∧
    (boot [4, 1] []).fetch = some 4 ∧ decode 4 = .out .pos ∧
    (boot [4, 1] []).mem.read ((boot [4, 1] []).slot 1) = some 1 ∧ (boot [4, 1] []).operand .pos 1 = some 1 ∧
    (boot [99] []).fetch = some 99 ∧ decode 99 = .hlt := by decide
theorem witness_ShorterInstructionsIssueTheirAccesses_jumps :
    ∀ c ∈ ([(1005, .jt .pos .imm), (1006, .jf .pos .imm)] : List (Word × Instr)),
      decode c.1 = c.2 ∧ (boot [c.1, 2, 9] []).status = .running ∧ (boot [c.1, 2, 9] []).fetch = some c.1 ∧
      (boot [c.1, 2, 9] []).mem.read ((boot [c.1, 2, 9] []).slot 1) = some 2 ∧
      (boot [c.1, 2, 9] []).operand .pos 1 = some 9 ∧
      (boot [c.1, 2, 9] []).mem.read ((boot [c.1, 2, 9] []).slot 2) = some 9 ∧
      (boot [c.1, 2, 9] []).operand .imm 2 = some 9 := by decide
/-- A listing whose one label is defined once and used before its definition. -/
theorem witness_AssembledInstructionsDecode :
    ((Mode.imm = .imm ∧ 1 = 1) ∨ (Mode.imm = .pos ∧ 1 = 0)) ∧ ((Mode.pos = .imm ∧ 0 = 1) ∨ (Mode.pos = .pos ∧ 0 = 0)) ∧
    itemInstr (.add (.imm (.lit 1)) (.pos (.lit 2)) (.lit 3)) = some (.add .imm .pos) ∧
    itemInstr .hlt = some .hlt ∧
    assemble ([.jt (.imm (.lit 1)) (.imm (.label 0))] ++ .label 0 :: [.hlt]) = some [1105, 1, 3, 99] ∧
    AsmItem.label 0 ∉ [.jt (.imm (.lit 1)) (.imm (.label 0))] ∧ AsmItem.label 0 ∉ [AsmItem.hlt] ∧
    (itemValues (.jt (.imm (.lit 1)) (.imm (.label 0))))[2]? = some (.label 0) :=
  ⟨by decide, by decide, by decide, by decide, by decide, by decide, by decide, by decide⟩
theorem witness_AssembledInstructionsDecode_labels_defined (n : Nat)
    (h : CellValue.label n ∈ ([.out (.imm (.label 0)), .label 0] : List AsmItem).flatMap itemValues) :
    AsmItem.label n ∈ ([.out (.imm (.label 0)), .label 0] : List AsmItem) := by
  simp_all [itemValues, itemInstr, operandValue]

end Sys2Proof.Tests
end

/-! PROOFS. The family of 30_encoding.md: the decoder on words that are not negative, and the opcode map. -/

namespace Sys2Proof

/-! ### Decimal digits of a word that is not negative -/

theorem toInt_eq_toNat_of_nonneg {w : Word} (h : 0 ≤ w.toInt) : w.toInt = (w.toNat : Int) :=
  BitVec.toInt_eq_toNat_of_lt (BitVec.toInt_pos_iff.mp h)

/-- On natural numbers truncated division is floor division, so the digit of weight 10^k is the usual one. -/
theorem modeDigit_natCast (weight n : Nat) : modeDigit weight n = ((n / weight % 10 : Nat) : Int) := by
  rw [modeDigit_of_nonneg n.cast_nonneg weight.cast_nonneg]
  norm_cast

theorem modeOfDigit_eq_pos_iff (d : Int) : modeOfDigit d = .pos ↔ d ≠ 1 := by
  rw [Ne, ← modeOfDigit_eq_imm_iff]
  cases modeOfDigit d <;> decide

/-- Rules R53, R54: the digit 1 means immediate and every other digit positional. -/
theorem modeOfDigit_modeDigit_natCast (weight n : Nat) :
    (modeOfDigit (modeDigit weight n) = .imm ↔ n / weight % 10 = 1) ∧
    (modeOfDigit (modeDigit weight n) = .pos ↔ n / weight % 10 ≠ 1) := by
  rw [modeOfDigit_eq_imm_iff, modeOfDigit_eq_pos_iff, modeDigit_natCast]
  constructor <;> norm_cast

/-- The decoder of a word that is not negative, over the word's unsigned value. -/
theorem decodeWord_of_nonneg {w : Word} (h : 0 ≤ w.toInt) :
    decodeWord w =
      { opc := ((w.toNat % 100 : Nat) : Int)
        m1 := modeOfDigit (modeDigit (100 : Nat) w.toNat)
        m2 := modeOfDigit (modeDigit (1000 : Nat) w.toNat)
        m3 := modeOfDigit (modeDigit (10000 : Nat) w.toNat) } := by
  rw [decodeWord, opcodeDigits_of_nonneg h, toInt_eq_toNat_of_nonneg h]
  rfl

/-- Settles O1: on a word that is not negative the decoder works on the natural number the word holds. -/
theorem decoderReadsDecimalDigits : Obligations.DecoderReadsDecimalDigits := by
  intro w h
  obtain ⟨hi1, hp1⟩ := modeOfDigit_modeDigit_natCast 100 w.toNat
  obtain ⟨hi2, hp2⟩ := modeOfDigit_modeDigit_natCast 1000 w.toNat
  obtain ⟨hi3, hp3⟩ := modeOfDigit_modeDigit_natCast 10000 w.toNat
  rw [decodeWord_of_nonneg h]
  exact ⟨rfl, hi1, hp1, hi2, hp2, hi3, hp3⟩

/-! ### The opcode map, one equation per row of the table of rule R52 -/

section
variable {d : Decoded}

theorem selectInstr_eq_add (h : d.opc = 1) : selectInstr d = .add d.m1 d.m2 := by simp [selectInstr, h]
theorem selectInstr_eq_mul (h : d.opc = 2) : selectInstr d = .mul d.m1 d.m2 := by simp [selectInstr, h]
theorem selectInstr_eq_inp (h : d.opc = 3) : selectInstr d = .inp := by simp [selectInstr, h]
theorem selectInstr_eq_out (h : d.opc = 4) : selectInstr d = .out d.m1 := by simp [selectInstr, h]
theorem selectInstr_eq_jt (h : d.opc = 5) : selectInstr d = .jt d.m1 d.m2 := by simp [selectInstr, h]
theorem selectInstr_eq_jf (h : d.opc = 6) : selectInstr d = .jf d.m1 d.m2 := by simp [selectInstr, h]
theorem selectInstr_eq_lt (h : d.opc = 7) : selectInstr d = .lt d.m1 d.m2 := by simp [selectInstr, h]
theorem selectInstr_eq_eq (h : d.opc = 8) : selectInstr d = .eq d.m1 d.m2 := by simp [selectInstr, h]
theorem selectInstr_eq_hlt (h : d.opc = 99) : selectInstr d = .hlt := by simp [selectInstr, h]

/-- Rule R60: the map is closed. -/
theorem selectInstr_eq_illegal (h : d.opc ∉ legalOpcodes) : selectInstr d = .illegal d.opc := by
  simp only [legalOpcodes, List.mem_cons, List.not_mem_nil, or_false, not_or] at h
  simp [selectInstr, h]

end

/-- A row of the table of rule R52: the instruction a word selects, and its format. -/
theorem decode_and_format {w : Word} {i : Instr} {f : Option Format} (h : selectInstr (decodeWord w) = i)
    (hf : i.format = f) : decode w = i ∧ (decode w).format = f :=
  ⟨h, (congrArg Instr.format h).trans hf⟩

/-- Settles O7, row by row of the opcode map; the parameter roles and lengths of the formats compute. -/
theorem opcodeMapIsClosed : Obligations.OpcodeMapIsClosed := fun _ =>
  ⟨fun h => decode_and_format (selectInstr_eq_add h) rfl,
   fun h => decode_and_format (selectInstr_eq_mul h) rfl,
   fun h => decode_and_format (selectInstr_eq_inp h) rfl,
   fun h => decode_and_format (selectInstr_eq_out h) rfl,
   fun h => decode_and_format (selectInstr_eq_jt h) rfl,
   fun h => decode_and_format (selectInstr_eq_jf h) rfl,
   fun h => decode_and_format (selectInstr_eq_lt h) rfl,
   fun h => decode_and_format (selectInstr_eq_eq h) rfl,
   fun h => decode_and_format (selectInstr_eq_hlt h) rfl,
   fun h => decode_and_format (selectInstr_eq_illegal h) rfl,
   rfl, rfl, rfl, rfl, rfl, rfl, rfl, rfl, rfl, rfl⟩

end Sys2Proof

/-! PROOFS. The family of 41_resolver.md: Read and WriteTarget, one equation per case. -/

namespace Sys2Proof.Machine

section
variable {mem : Memory} {a : Int} {v : Word}

/-! ### The slot is out of bounds -/

theorem readOperand_of_slot_not_inBounds (h : ¬ mem.InBounds a) (m : Mode) : readOperand m a mem = none := by
  simp only [readOperand, (Memory.read_eq_none_iff mem a).mpr h]

theorem writeTarget_of_slot_not_inBounds (h : ¬ mem.InBounds a) : writeTarget a mem = none := by
  simp only [writeTarget, (Memory.read_eq_none_iff mem a).mpr h]

/-! ### The slot holds a value -/

theorem readOperand_imm_of_read (h : mem.read a = some v) : readOperand .imm a mem = some v := by
  simp only [readOperand, h]

theorem readOperand_pos_of_read (h : mem.read a = some v) : readOperand .pos a mem = mem.read v.toInt := by
  simp only [readOperand, h]

theorem writeTarget_of_read (h : mem.read a = some v) :
    writeTarget a mem = if mem.InBounds v.toInt then some v else none := by
  simp only [writeTarget, h]

end

/-- Settles O12: first by whether the slot is in bounds, then by whether the value it holds is in bounds as an
address. -/
theorem resolverFollowsItsTable : Obligations.ResolverFollowsItsTable := by
  refine fun mem a => ⟨fun ha => ?slotOutOfBounds, fun v hv => ⟨readOperand_imm_of_read hv, fun hb => ?pointerInBounds,
    fun hb => ?pointerOutOfBounds⟩⟩
  case slotOutOfBounds =>
    exact ⟨readOperand_of_slot_not_inBounds ha, writeTarget_of_slot_not_inBounds ha⟩
  case pointerInBounds =>
    have hx := Memory.read_of_inBounds hb
    exact ⟨⟨_, hx, (readOperand_pos_of_read hv).trans hx⟩, (writeTarget_of_read hv).trans (if_pos hb)⟩
  case pointerOutOfBounds =>
    have hx := (Memory.read_eq_none_iff mem v.toInt).mpr hb
    exact ⟨(readOperand_pos_of_read hv).trans hx, (writeTarget_of_read hv).trans (if_neg hb)⟩

end Sys2Proof.Machine

/-! PROOFS. The family of 42_dispatcher.md: what a step does to ip. -/

namespace Sys2Proof.Machine

section
variable {s t : State} {i : Instr}

/-! ### The step of a running machine -/

/-- Rule R93: there is no word to execute. -/
theorem step_of_current_eq_none (hs : s.status = .running) (hc : s.current = none) :
    step s = .next (s.raise .outOfBounds none) := by
  have hf : s.fetch = none := Option.map_eq_none_iff.mp hc
  simp only [step, hs, hf]

/-- Rule R92: the word at ip is decoded and executed. -/
theorem step_of_current_eq_some (hs : s.status = .running) (hc : s.current = some i) : step s = exec i s := by
  obtain ⟨w, hf, rfl⟩ := Option.map_eq_some_iff.mp hc
  simp only [step, hs, hf]

theorem ip_inBounds_of_current (hc : s.current = some i) : s.mem.InBounds s.ip.toInt := by
  obtain ⟨w, hf, _⟩ := Option.map_eq_some_iff.mp hc
  exact Memory.inBounds_of_read hf

/-- Rule R3 bounds N, so that no increment from an instruction inside memory wraps. -/
theorem advance_ip_toInt_of_current (hN : s.mem.len ≤ Config.maxLen) (hc : s.current = some i) {n : Nat}
    (hn : n ≤ 4) : (s.advance n).ip.toInt = s.ip.toInt + (n : Int) := by
  obtain ⟨hlow, hhigh⟩ := ip_inBounds_of_current hc
  rw [Config.maxLen] at hN
  exact toInt_ofInt_of_range (by omega) (by omega)

/-! ### The next ip of each instruction -/

/-- What a conditional jump that does not raise makes of ip: the target when the test holds of the first operand, the
increment when it does not. -/
def State.JumpIp (s : State) (taken : Word → Bool) (m1 m2 : Mode) (ip : Word) : Prop :=
  ∃ p1 p2, s.operand m1 1 = some p1 ∧ s.operand m2 2 = some p2 ∧
    (taken p1 = true → ip = p2) ∧ (taken p1 = false → ip = (s.advance 3).ip)

/-- The row of rule R96's table for an instruction that does not raise: the values it allows for the next ip. -/
def State.NextIp (s : State) (ip : Word) : Instr → Prop
  | .add _ _ | .mul _ _ | .lt _ _ | .eq _ _ => ip = (s.advance 4).ip
  | .inp | .out _ => ip = (s.advance 2).ip
  | .jt m1 m2 => s.JumpIp nonZero m1 m2 ip
  | .jf m1 m2 => s.JumpIp (fun p => !nonZero p) m1 m2 ip
  | .hlt => ip = s.ip
  | .illegal _ => False

/-- Either the step from s to t raises and leaves ip, or it does not raise and the next ip is one the rule allows. -/
def State.LeavesIpOr (s t : State) (rule : Word → Prop) : Prop :=
  (t.status = .faulted ∧ t.ip = s.ip) ∨ (t.status ≠ .faulted ∧ rule t.ip)

theorem State.leavesIpOr_raise (s : State) (k : FatalKind) (o : Option Int) (rule : Word → Prop) :
    s.LeavesIpOr (s.raise k o) rule := .inl ⟨rfl, rfl⟩

theorem State.leavesIpOr_of_running {rule : Word → Prop} (ht : t.status = .running) (h : rule t.ip) :
    s.LeavesIpOr t rule := .inr ⟨by simp [ht], h⟩

theorem binaryToMemory_leavesIpOr (hs : s.status = .running) (opc : Int) (f : Word → Word → Word) (m1 m2 : Mode) :
    s.LeavesIpOr (binaryToMemory opc f m1 m2 s) (· = (s.advance 4).ip) := by
  obtain ⟨-, h⟩ | ⟨p1, p2, d, -, -, -, h⟩ := binaryToMemory_cases opc f m1 m2 s <;> rw [h]
  · exact s.leavesIpOr_raise _ _ _
  · exact State.leavesIpOr_of_running hs rfl

theorem conditionalJump_leavesIpOr (hs : s.status = .running) (opc : Int) (taken : Word → Bool) (m1 m2 : Mode) :
    s.LeavesIpOr (conditionalJump opc taken m1 m2 s) (s.JumpIp taken m1 m2) := by
  obtain ⟨-, h⟩ | ⟨p1, p2, h1, h2, h⟩ := conditionalJump_cases opc taken m1 m2 s <;> rw [h]
  · exact s.leavesIpOr_raise _ _ _
  · refine State.leavesIpOr_of_running ?status ⟨p1, p2, h1, h2, ?taken, ?notTaken⟩
    case status => split <;> exact hs
    case taken => intro hp; rw [if_pos hp, State.jump_ip]
    case notTaken => intro hp; rw [hp]; rfl

theorem execIn_leavesIpOr (hs : s.status = .running) (h : execIn s = .next t) :
    s.LeavesIpOr t (· = (s.advance 2).ip) := by
  obtain ⟨-, hx⟩ | ⟨v, -, -, hx⟩ | ⟨v, d, -, -, hx⟩ := execIn_cases s <;> cases hx.symm.trans h
  · exact s.leavesIpOr_raise _ _ _
  · exact s.leavesIpOr_raise _ _ _
  · exact State.leavesIpOr_of_running hs rfl

theorem execOut_leavesIpOr (hs : s.status = .running) {m1 : Mode} (h : execOut m1 s = .next t) :
    s.LeavesIpOr t (· = (s.advance 2).ip) := by
  obtain ⟨-, hx⟩ | ⟨p1, -, hx⟩ := execOut_cases m1 s <;> cases hx.symm.trans h
  · exact s.leavesIpOr_raise _ _ _
  · exact State.leavesIpOr_of_running hs rfl

/-- Rule R96 for every instruction at once: it raises and leaves ip, or follows its row of the table. -/
theorem exec_leavesIpOr_nextIp (hs : s.status = .running) (h : exec i s = .next t) :
    s.LeavesIpOr t (s.NextIp · i) := by
  cases i with
  | add m1 m2 | mul m1 m2 | lt m1 m2 | eq m1 m2 => cases h; exact binaryToMemory_leavesIpOr hs _ _ m1 m2
  | inp => exact execIn_leavesIpOr hs h
  | out m1 => exact execOut_leavesIpOr hs h
  | jt m1 m2 | jf m1 m2 => cases h; exact conditionalJump_leavesIpOr hs _ _ m1 m2
  | hlt => cases h; exact .inr ⟨by simp, rfl⟩
  | illegal opc => cases h; exact s.leavesIpOr_raise _ _ _

/-! ### The three parts of the statement -/

theorem ip_of_step_raises (hs : s.status = .running) (h : step s = .next t) (ht : t.status = .faulted) :
    t.ip = s.ip := by
  cases hc : s.current with
  | none =>
    cases (step_of_current_eq_none hs hc).symm.trans h
    rfl
  | some i =>
    rw [step_of_current_eq_some hs hc] at h
    obtain ⟨-, hip⟩ | ⟨hn, -⟩ := exec_leavesIpOr_nextIp hs h
    · exact hip
    · exact absurd ht hn

theorem nextIp_of_step (hs : s.status = .running) (hc : s.current = some i) (h : step s = .next t)
    (ht : t.status ≠ .faulted) : s.NextIp t.ip i := by
  rw [step_of_current_eq_some hs hc] at h
  obtain ⟨hf, -⟩ | ⟨-, hip⟩ := exec_leavesIpOr_nextIp hs h
  · exact absurd hf ht
  · exact hip

end

theorem length_formatOfOpcode (opc : Int) : (formatOfOpcode opc).map Format.length =
    if opc ∈ [1, 2, 7, 8] then some 4 else if opc ∈ [5, 6] then some 3 else if opc ∈ [3, 4] then some 2
    else if opc = 99 then some 1 else none := by
  simp only [formatOfOpcode, List.mem_cons, List.not_mem_nil, or_false, ite_or,
    apply_ite (Option.map Format.length)]
  rfl

/-- Settles O32: a raise leaves ip, every other step follows its instruction's row, and under the invariant the
increments of that row do not wrap. -/
theorem everyInstructionControlsIpByTheTable : Obligations.EveryInstructionControlsIpByTheTable := by
  refine ⟨length_formatOfOpcode, fun s t => ip_of_step_raises, fun s t i ⟨_, hN, _, _⟩ hs hc h ht => ?_⟩
  have hip : s.NextIp t.ip i := nextIp_of_step hs hc h ht
  have hadv : ∀ n ≤ 4, t.ip = (s.advance n).ip → t.ip.toInt = s.ip.toInt + (n : Int) := fun n hn e =>
    e ▸ advance_ip_toInt_of_current hN hc hn
  refine ⟨?binary, ?inp, ?out, ?jt, ?jf, ?hlt, ?illegal⟩
  case binary => rintro m1 m2 (rfl | rfl | rfl | rfl) <;> exact hadv 4 (by decide) hip
  case inp => rintro rfl; exact hadv 2 (by decide) hip
  case out => rintro m1 rfl; exact hadv 2 (by decide) hip
  case jt =>
    rintro m1 m2 rfl
    obtain ⟨p1, p2, h1, h2, htaken, hnot⟩ := hip
    refine ⟨p1, p2, h1, h2, fun hp => htaken ?_, fun hp => hadv 3 (by decide) (hnot ?_)⟩ <;> simp [nonZero, hp]
  case jf =>
    rintro m1 m2 rfl
    obtain ⟨p1, p2, h1, h2, htaken, hnot⟩ := hip
    refine ⟨p1, p2, h1, h2, fun hp => htaken ?_, fun hp => hadv 3 (by decide) (hnot ?_)⟩ <;> simp [nonZero, hp]
  case hlt => rintro rfl; exact hip
  case illegal => rintro opc rfl; exact hip

end Sys2Proof.Machine

/-! PROOFS. The family of 44_io.md: OUT. -/

namespace Sys2Proof.Machine

section
variable {s : State} {m : Mode} {i : Nat}

/-! ### Operands that cannot be resolved, and the room behind a slot -/

/-- Rules R82, R164: resolving a read parameter fails exactly when one of its addresses is out of bounds. -/
theorem State.operand_eq_none_iff : s.operand m i = none ↔ s.operandOutOfBounds m i := by
  unfold State.operand State.operandOutOfBounds
  cases hv : s.mem.read (s.slot i) with
  | none =>
    have hslot := (Memory.read_eq_none_iff _ _).mp hv
    simp [readOperand_of_slot_not_inBounds hslot, hslot]
  | some v =>
    have hslot := Memory.inBounds_of_read hv
    cases m with
    | imm => simp [readOperand_imm_of_read hv, hslot]
    | pos => simp [readOperand_pos_of_read hv, Memory.read_eq_none_iff, hslot]

/-- Rule R3 bounds N, so that ip can pass a slot inside memory by up to 4 cells without wrapping. -/
theorem advance_ip_toInt_of_slot_inBounds (hN : s.mem.len ≤ Config.maxLen) (hslot : s.mem.InBounds (s.slot i))
    {n : Nat} (hn : n ≤ i + 4) : (s.advance n).ip.toInt = s.ip.toInt + (n : Int) := by
  obtain ⟨-, hhigh⟩ := hslot
  have hlow := BitVec.le_toInt s.ip
  rw [State.slot] at hhigh
  rw [Config.maxLen] at hN
  exact toInt_ofInt_of_range (by omega) (by omega)

/-! ### OUT, one equation per case -/

theorem exec_out_of_operand {p : Word} (hp : s.operand m 1 = some p) :
    exec (.out m) s = .next ((s.emit p).advance 2) := by
  obtain ⟨hnone, -⟩ | ⟨q, hq, hx⟩ := execOut_cases m s
  · cases hnone.symm.trans hp
  · cases hq.symm.trans hp
    exact hx

theorem exec_out_of_operandOutOfBounds (h : s.operandOutOfBounds m 1) :
    exec (.out m) s = .next (s.raise .outOfBounds (some 4)) := by
  obtain ⟨-, hx⟩ | ⟨q, hq, -⟩ := execOut_cases m s
  · exact hx
  · cases hq.symm.trans (State.operand_eq_none_iff.mpr h)

end

/-- Settles O18: the operand resolves or it does not; when it does, its slot lies inside memory, so that the increment
of ip does not wrap. -/
theorem outputAppendsTheOperand : Obligations.OutputAppendsTheOperand := by
  refine ⟨fun w h => selectInstr_eq_out h, rfl, rfl, fun m1 s p1 hN hp => ?resolved, fun m1 s h => ?outOfBounds⟩
  case resolved =>
    have hip : ((s.emit p1).advance 2).ip.toInt = s.ip.toInt + 2 :=
      advance_ip_toInt_of_slot_inBounds (s := s.emit p1) hN (State.slot_inBounds_of_operand hp) (by decide)
    exact ⟨_, exec_out_of_operand hp, rfl, hip, rfl, rfl, rfl, rfl, rfl⟩
  case outOfBounds =>
    exact ⟨_, rfl, exec_out_of_operandOutOfBounds h⟩

end Sys2Proof.Machine

/-! PROOFS. The family of 46_compare.md: LT and EQ. -/

namespace Sys2Proof.Machine

/-! ### The answer of a comparison -/

theorem truthCell_lessThan (p q : Word) : truthCell (lessThan p q) = if p.toInt < q.toInt then 1 else 0 := by
  simp only [truthCell, lessThan, decide_eq_true_eq]

/-- Two words are one word exactly when they denote one integer: there is one zero (rule R141). -/
theorem truthCell_equalCells (p q : Word) : truthCell (equalCells p q) = if p.toInt = q.toInt then 1 else 0 := by
  simp only [truthCell, equalCells, decide_eq_true_eq, BitVec.toInt_inj]

section
variable {s : State} {p1 p2 d v : Word} {m1 m2 : Mode} {i : Nat}

/-! ### A destination that cannot be resolved -/

/-- Rules R82, R164: resolving a write parameter fails exactly when its slot or the address there is out of bounds. -/
theorem State.destination_eq_none_iff : s.destination i = none ↔ s.targetOutOfBounds i := by
  unfold State.destination State.targetOutOfBounds
  cases hv : s.mem.read (s.slot i) with
  | none =>
    have hslot := (Memory.read_eq_none_iff _ _).mp hv
    simp [writeTarget_of_slot_not_inBounds hslot, hslot]
  | some a =>
    have hslot := Memory.inBounds_of_read hv
    simp [writeTarget_of_read hv, hslot]

/-! ### The shape that ADD, MUL, LT and EQ share -/

theorem binaryToMemory_of_resolved (opc : Int) (f : Word → Word → Word) (h1 : s.operand m1 1 = some p1)
    (h2 : s.operand m2 2 = some p2) (hd : s.destination 3 = some d) :
    binaryToMemory opc f m1 m2 s = (s.store d (f p1 p2)).advance 4 := by
  obtain ⟨hnone, -⟩ | ⟨q1, q2, e, hq1, hq2, he, hx⟩ := binaryToMemory_cases opc f m1 m2 s
  · simp [h1, h2, hd] at hnone
  · cases hq1.symm.trans h1
    cases hq2.symm.trans h2
    cases he.symm.trans hd
    exact hx

theorem binaryToMemory_of_outOfBounds (opc : Int) (f : Word → Word → Word)
    (h : s.operandOutOfBounds m1 1 ∨ s.operandOutOfBounds m2 2 ∨ s.targetOutOfBounds 3) :
    binaryToMemory opc f m1 m2 s = s.raise .outOfBounds (some opc) := by
  simp only [← State.operand_eq_none_iff, ← State.destination_eq_none_iff] at h
  obtain ⟨-, hx⟩ | ⟨p1, p2, d, h1, h2, hd, -⟩ := binaryToMemory_cases opc f m1 m2 s
  · exact hx
  · simp [h1, h2, hd] at h

/-- The next state t of an instruction of four cells that stores v at d: the cell and ip change, and nothing else. -/
def State.StoresAndAdvances (s : State) (d v : Word) (t : State) : Prop :=
  t.mem.read d.toInt = some v ∧ t.ip.toInt = s.ip.toInt + 4 ∧
  (∀ a, a ≠ d.toInt → t.mem.read a = s.mem.read a) ∧ t.mem.len = s.mem.len ∧
  t.inp = s.inp ∧ t.cur = s.cur ∧ t.out = s.out ∧ t.status = s.status ∧ t.fault = s.fault

/-- The destination is parameter 3, so its slot lies inside memory and the increment of ip does not wrap. -/
theorem State.storesAndAdvances_of_destination (hN : s.mem.len ≤ Config.maxLen) (hd : s.destination 3 = some d)
    (v : Word) : s.StoresAndAdvances d v ((s.store d v).advance 4) := by
  have hcell : (s.mem.write d.toInt v).read d.toInt = some v :=
    Memory.read_write_same _ _ _ (State.destination_inBounds hd)
  have hip : (s.advance 4).ip.toInt = s.ip.toInt + 4 :=
    advance_ip_toInt_of_slot_inBounds hN (State.slot_inBounds_of_destination hd) (by decide)
  have hframe : ∀ a, a ≠ d.toInt → (s.mem.write d.toInt v).read a = s.mem.read a := fun a =>
    Memory.read_write_other s.mem d.toInt a v
  exact ⟨hcell, hip, hframe, Memory.write_len _ _ _, rfl, rfl, rfl, rfl, rfl⟩

theorem binaryToMemory_storesAndAdvances (opc : Int) {f : Word → Word → Word} (hf : f p1 p2 = v)
    (hN : s.mem.len ≤ Config.maxLen) (h1 : s.operand m1 1 = some p1) (h2 : s.operand m2 2 = some p2)
    (hd : s.destination 3 = some d) : s.StoresAndAdvances d v (binaryToMemory opc f m1 m2 s) := by
  rw [binaryToMemory_of_resolved opc f h1 h2 hd, hf]
  exact State.storesAndAdvances_of_destination hN hd v

end

/-- Settles O15: LT is the shared shape with the answer of the signed strict comparison. -/
theorem lessThanStoresOneOrZero : Obligations.LessThanStoresOneOrZero := by
  refine ⟨fun w h => selectInstr_eq_lt h, rfl, rfl, rfl, rfl,
    fun m1 m2 s p1 p2 d hN h1 h2 hd => ?resolved, fun m1 m2 s h => ?outOfBounds⟩
  case resolved =>
    exact ⟨_, rfl, binaryToMemory_storesAndAdvances 7 (truthCell_lessThan p1 p2) hN h1 h2 hd⟩
  case outOfBounds =>
    exact ⟨_, rfl, congrArg Host.Outcome.next (binaryToMemory_of_outOfBounds 7 _ h)⟩

/-- Settles O16: EQ is the shared shape with the answer of the test for equality. -/
theorem equalsStoresOneOrZero : Obligations.EqualsStoresOneOrZero := by
  refine ⟨fun w h => selectInstr_eq_eq h, rfl, rfl, rfl, rfl,
    fun m1 m2 s p1 p2 d hN h1 h2 hd => ?resolved, fun m1 m2 s h => ?outOfBounds⟩
  case resolved =>
    exact ⟨_, rfl, binaryToMemory_storesAndAdvances 8 (truthCell_equalCells p1 p2) hN h1 h2 hd⟩
  case outOfBounds =>
    exact ⟨_, rfl, congrArg Host.Outcome.next (binaryToMemory_of_outOfBounds 8 _ h)⟩

end Sys2Proof.Machine

/-! PROOFS. The family of 47_halt.md: the meaning of an illegal word. -/

namespace Sys2Proof.Machine

/-- Rules R151, R163: the meaning of an illegal word is a raise, which reads no parameter slot. -/
theorem exec_illegal (opc : Int) (s : State) :
    exec (.illegal opc) s = .next (s.raise .unknownOpcode (some opc)) := rfl

/-- Settles O22: the opcode map is closed, and the record is the one that the raise writes. -/
theorem unrecognisedOpcodeRaises : Obligations.UnrecognisedOpcodeRaises := by
  refine ⟨fun w h => ?decoded, fun opc s => ?executed⟩
  case decoded => exact selectInstr_eq_illegal h
  case executed => exact exec_illegal opc s

end Sys2Proof.Machine

/-! PROOFS. The family of 60_exceptions.md: which fatal condition a step raises, and when. -/

namespace Sys2Proof

/-- Rules R60, R163: the illegal word is what the opcode map gives exactly outside the nine opcodes. -/
theorem decode_eq_illegal_iff (w : Word) : (∃ opc, decode w = .illegal opc) ↔ (decodeWord w).opc ∉ legalOpcodes := by
  constructor
  · rintro ⟨opc, h⟩ hlegal
    unfold decode selectInstr at h
    split_ifs at h
    simp only [legalOpcodes, List.mem_cons, List.not_mem_nil, or_false] at hlegal
    omega
  · exact fun h => ⟨_, selectInstr_eq_illegal h⟩

end Sys2Proof

namespace Sys2Proof.Machine

/-- The kind in the fault record, none while there is no record (rule R17). -/
def State.faultKind (s : State) : Option FatalKind := s.fault.map FaultRecord.kind

/-- Rules R162 to R165: when executing an instruction raises each of the fatal conditions. -/
def State.Raises (s : State) (i : Instr) : FatalKind → Prop
  | .inputExhausted => i = .inp ∧ s.nextInput = none
  | .unknownOpcode => ∃ opc, i = .illegal opc
  | .outOfBounds => s.addressOutOfBounds i ∧ ¬ (i = .inp ∧ s.nextInput = none)

section
variable {s t : State} {i : Instr} {k : FatalKind}

theorem State.faultKind_eq_some_iff : s.faultKind = some k ↔ ∃ r, s.fault = some r ∧ r.kind = k :=
  Option.map_eq_some_iff

theorem State.faultKind_of_fault_eq_none (h : s.fault = none) : s.faultKind = none :=
  congrArg (Option.map FaultRecord.kind) h

@[simp] theorem State.faultKind_raise_eq_some_iff {c : FatalKind} {o : Option Int} :
    (s.raise c o).faultKind = some k ↔ k = c := Option.some_inj.trans eq_comm

/-- Rule R17: a running machine of the invariant has no record yet. -/
theorem State.fault_eq_none_of_running (hs : s.status = .running) (h : s.statusFits = true) : s.fault = none := by
  cases hf : s.fault with
  | none => rfl
  | some r => simp [State.statusFits, hs, hf] at h

theorem State.current_illegal_iff :
    (∃ opc, s.current = some (.illegal opc)) ↔ ∃ w, s.fetch = some w ∧ (decodeWord w).opc ∉ legalOpcodes := by
  simp only [← decode_eq_illegal_iff, State.current, Option.map_eq_some_iff]
  exact ⟨fun ⟨opc, w, hf, hd⟩ => ⟨w, hf, opc, hd⟩, fun ⟨w, hf, opc, hd⟩ => ⟨opc, w, hf, hd⟩⟩

/-! ### The kind that each meaning leaves in the record -/

theorem binaryToMemory_faultKind_iff (hf : s.fault = none) (opc : Int) (f : Word → Word → Word) (m1 m2 : Mode) :
    (binaryToMemory opc f m1 m2 s).faultKind = some k ↔
      (s.operandOutOfBounds m1 1 ∨ s.operandOutOfBounds m2 2 ∨ s.targetOutOfBounds 3) ∧ k = .outOfBounds := by
  simp only [← State.operand_eq_none_iff, ← State.destination_eq_none_iff]
  obtain ⟨hnone, h⟩ | ⟨p1, p2, d, h1, h2, hd, h⟩ := binaryToMemory_cases opc f m1 m2 s <;> rw [h]
  · simp [hnone]
  · simp [h1, h2, hd, hf, State.faultKind_of_fault_eq_none]

theorem conditionalJump_faultKind_iff (hf : s.fault = none) (opc : Int) (taken : Word → Bool) (m1 m2 : Mode) :
    (conditionalJump opc taken m1 m2 s).faultKind = some k ↔
      (s.operandOutOfBounds m1 1 ∨ s.operandOutOfBounds m2 2) ∧ k = .outOfBounds := by
  simp only [← State.operand_eq_none_iff]
  obtain ⟨hnone, h⟩ | ⟨p1, p2, h1, h2, h⟩ := conditionalJump_cases opc taken m1 m2 s <;> rw [h]
  · simp [hnone]
  · have hkeep : (if taken p1 then s.jump p2 else s.advance 3).fault = none := by split <;> exact hf
    simp [h1, h2, State.faultKind_of_fault_eq_none hkeep]

theorem execOut_faultKind_iff (hf : s.fault = none) {m1 : Mode} (h : execOut m1 s = .next t) :
    t.faultKind = some k ↔ s.operandOutOfBounds m1 1 ∧ k = .outOfBounds := by
  rw [← State.operand_eq_none_iff]
  obtain ⟨hnone, hx⟩ | ⟨p1, h1, hx⟩ := execOut_cases m1 s <;> cases hx.symm.trans h
  · simp [hnone]
  · simp [h1, hf, State.faultKind_of_fault_eq_none]

/-- Decision D10: the exhausted input is tested first, so the two conditions of IN exclude each other. -/
theorem execIn_faultKind_iff (hf : s.fault = none) (h : execIn s = .next t) :
    t.faultKind = some k ↔ (s.nextInput = none ∧ k = .inputExhausted) ∨
      (s.targetOutOfBounds 1 ∧ s.nextInput ≠ none ∧ k = .outOfBounds) := by
  rw [← State.destination_eq_none_iff]
  obtain ⟨hnone, hx⟩ | ⟨v, hv, hnone, hx⟩ | ⟨v, d, hv, hd, hx⟩ := execIn_cases s <;> cases hx.symm.trans h
  · simp [hnone]
  · simp [hv, hnone]
  · simp [hv, hd, hf, State.faultKind_of_fault_eq_none]

/-- Rules R164, R165: a legal instruction other than IN has no other condition to raise. -/
theorem State.raises_iff_of_legal (hin : i ≠ .inp) (hlegal : ∀ opc, i ≠ .illegal opc) :
    s.Raises i k ↔ s.addressOutOfBounds i ∧ k = .outOfBounds := by
  cases k <;> simp [State.Raises, hin, hlegal]

/-- Rules R162 to R165 for every instruction at once. -/
theorem exec_faultKind_iff (hf : s.fault = none) (h : exec i s = .next t) :
    t.faultKind = some k ↔ s.Raises i k := by
  cases i with
  | add m1 m2 | mul m1 m2 | lt m1 m2 | eq m1 m2 =>
    cases h
    rw [State.raises_iff_of_legal (by simp) (by simp)]
    exact binaryToMemory_faultKind_iff hf _ _ m1 m2
  | jt m1 m2 | jf m1 m2 =>
    cases h
    rw [State.raises_iff_of_legal (by simp) (by simp)]
    exact conditionalJump_faultKind_iff hf _ _ m1 m2
  | out m1 =>
    rw [State.raises_iff_of_legal (by simp) (by simp)]
    exact execOut_faultKind_iff hf h
  | hlt =>
    cases h
    rw [State.raises_iff_of_legal (by simp) (by simp), State.faultKind_of_fault_eq_none (s := s.halt) hf]
    simp [State.addressOutOfBounds]
  | inp =>
    rw [execIn_faultKind_iff hf h]
    cases k <;> simp [State.Raises, State.addressOutOfBounds]
  | illegal opc =>
    cases h
    rw [State.faultKind_raise_eq_some_iff]
    cases k <;> simp [State.Raises, State.addressOutOfBounds]

/-- A step raises at the fetch, which is OutOfBounds (decision D12), or in the instruction at ip. -/
theorem step_faultKind_iff (hi : s.Inv) (hs : s.status = .running) (h : step s = .next t) :
    t.faultKind = some k ↔
      (s.current = none ∧ k = .outOfBounds) ∨ ∃ i, s.current = some i ∧ s.Raises i k := by
  obtain ⟨-, -, -, hfits⟩ := hi
  cases hc : s.current with
  | none =>
    cases (step_of_current_eq_none hs hc).symm.trans h
    simp
  | some i =>
    rw [step_of_current_eq_some hs hc] at h
    simp [exec_faultKind_iff (State.fault_eq_none_of_running hs hfits) h]

end

/-- Settles O24: no fetch and no other instruction raises InputExhausted, and the cursor never stands behind L. -/
theorem inputExhaustedExactlyByInAtTheEnd : Obligations.InputExhaustedExactlyByInAtTheEnd := by
  intro s t hi hs h
  have hend : s.nextInput = none ↔ s.cur = s.inp.length := by
    obtain ⟨-, -, hcur, -⟩ := hi
    rw [nextInput_eq_none_iff]
    omega
  rw [← State.faultKind_eq_some_iff, step_faultKind_iff hi hs h]
  simp [State.Raises, hend]

/-- Settles O25: no fetch and no legal instruction raises UnknownOpcode. -/
theorem unknownOpcodeExactlyForIllegalWords : Obligations.UnknownOpcodeExactlyForIllegalWords := by
  intro s t hi hs h
  rw [← State.faultKind_eq_some_iff, step_faultKind_iff hi hs h]
  refine Iff.trans ?_ State.current_illegal_iff
  simp [State.Raises]

end Sys2Proof.Machine

/-! PROOFS. The family of 70_reset_and_hazards.md: where a run starts. -/

namespace Sys2Proof.Machine

/-- The reset vector, read as the signed address that a fetch takes. -/
theorem resetVector_toInt : Config.resetVector.toInt = 0 := BitVec.toInt_zero

/-- A fetch right after reset reads the supplied memory at the reset vector. -/
theorem State.fetch_ofLaunch (l : Launch) :
    (State.ofLaunch l).fetch = l.mem0.read Config.resetVector.toInt := by
  rw [State.fetch, State.ofLaunch_mem, State.ofLaunch_ip]

/-- Settles O40: ip is the reset vector, which is 0 as a word and as an address. -/
theorem everyRunStartsAtAddressZero : Obligations.EveryRunStartsAtAddressZero := by
  intro l
  have hfetch : (State.ofLaunch l).fetch = l.mem0.read 0 := by
    rw [State.fetch_ofLaunch, resetVector_toInt]
  exact ⟨State.ofLaunch_ip l, hfetch⟩

end Sys2Proof.Machine

/-! PROOFS. The whole machine: what one instruction and one step can do, said once. -/

namespace Sys2Proof.Machine

/-! ### The two shared shapes -/

/-- The instructions of the shape of binaryToMemory, each with the function it computes and its modes. -/
inductive BinaryInstr : Instr → (Word → Word → Word) → Mode → Mode → Prop
  | add (m1 m2 : Mode) : BinaryInstr (.add m1 m2) sumCells m1 m2
  | mul (m1 m2 : Mode) : BinaryInstr (.mul m1 m2) productCells m1 m2
  | lt (m1 m2 : Mode) : BinaryInstr (.lt m1 m2) (fun p q => truthCell (lessThan p q)) m1 m2
  | eq (m1 m2 : Mode) : BinaryInstr (.eq m1 m2) (fun p q => truthCell (equalCells p q)) m1 m2

/-- The instructions of the shape of conditionalJump, each with its test and its modes. -/
inductive JumpInstr : Instr → (Word → Bool) → Mode → Mode → Prop
  | jt (m1 m2 : Mode) : JumpInstr (.jt m1 m2) nonZero m1 m2
  | jf (m1 m2 : Mode) : JumpInstr (.jf m1 m2) (fun p => !nonZero p) m1 m2

/-! ### The outcomes of an instruction and of a step -/

/-- The ways in which an instruction completes, with the state it leaves (rules R94, R96). -/
inductive State.Completes (s : State) : Instr → State → Prop
  | store {i : Instr} {f : Word → Word → Word} {m1 m2 : Mode} {p1 p2 d : Word}
      (hi : BinaryInstr i f m1 m2) (h1 : s.operand m1 1 = some p1) (h2 : s.operand m2 2 = some p2)
      (hd : s.destination 3 = some d) :
      s.Completes i ((s.store d (f p1 p2)).advance 4)
  | take {v d : Word} (hv : s.nextInput = some v) (hd : s.destination 1 = some d) :
      s.Completes .inp ((s.store d v).consumeInput.advance 2)
  | push {m : Mode} {p : Word} (hp : s.operand m 1 = some p) : s.Completes (.out m) ((s.emit p).advance 2)
  | jump {i : Instr} {taken : Word → Bool} {m1 m2 : Mode} {p1 p2 : Word}
      (hi : JumpInstr i taken m1 m2) (h1 : s.operand m1 1 = some p1) (h2 : s.operand m2 2 = some p2)
      (ht : taken p1 = true) : s.Completes i (s.jump p2)
  | pass {i : Instr} {taken : Word → Bool} {m1 m2 : Mode} {p1 p2 : Word}
      (hi : JumpInstr i taken m1 m2) (h1 : s.operand m1 1 = some p1) (h2 : s.operand m2 2 = some p2)
      (ht : taken p1 = false) : s.Completes i (s.advance 3)
  | halt : s.Completes .hlt s.halt

/-- The instruction raises a fatal condition and is left with its record, or it completes. -/
inductive State.Outcome (s : State) (i : Instr) : State → Prop
  | raises {k} (h : s.Raises i k) : s.Outcome i (s.raise k (some i.opcode))
  | completes {t} (h : s.Completes i t) : s.Outcome i t

/-- A step leaves an ended run, raises at a fetch out of bounds, or is an outcome of the instruction at ip. -/
inductive State.StepsTo (s : State) : State → Prop
  | ended (hs : s.status ≠ .running) : s.StepsTo s
  | fetchRaises (hs : s.status = .running) (hc : s.current = none) : s.StepsTo (s.raise .outOfBounds none)
  | executes {i t} (hs : s.status = .running) (hc : s.current = some i) (h : s.Outcome i t) : s.StepsTo t

/-- There is one zero, so the test on the integer is a test on the word. -/
theorem nonZero_eq_decide (p : Word) : nonZero p = decide (p ≠ 0) := by
  have h : p.toInt ≠ 0 ↔ p ≠ 0 := not_congr (BitVec.toInt_inj (y := 0))
  simp only [nonZero, h]

section
variable {s t : State} {i : Instr} {f : Word → Word → Word} {taken : Word → Bool} {m1 m2 m : Mode} {k : FatalKind}
  {p1 p2 d v : Word}

theorem BinaryInstr.exec_eq (h : BinaryInstr i f m1 m2) (s : State) :
    exec i s = .next (binaryToMemory i.opcode f m1 m2 s) := by cases h <;> rfl

theorem BinaryInstr.storeTarget_eq (h : BinaryInstr i f m1 m2) (s : State) : s.storeTarget i = s.destination 3 := by
  cases h <;> rfl

theorem BinaryInstr.storedValue_eq (h : BinaryInstr i f m1 m2) (h1 : s.operand m1 1 = some p1)
    (h2 : s.operand m2 2 = some p2) : s.storedValue i = some (f p1 p2) := by
  cases h <;> simp [State.storedValue, h1, h2, truthCell, lessThan, equalCells] <;> rfl

theorem BinaryInstr.raises_iff (h : BinaryInstr i f m1 m2) : s.Raises i k ↔
    (s.operandOutOfBounds m1 1 ∨ s.operandOutOfBounds m2 2 ∨ s.targetOutOfBounds 3) ∧ k = .outOfBounds := by
  cases h <;> exact State.raises_iff_of_legal (by simp) (by simp)

theorem JumpInstr.exec_eq (h : JumpInstr i taken m1 m2) (s : State) :
    exec i s = .next (conditionalJump i.opcode taken m1 m2 s) := by cases h <;> rfl

theorem JumpInstr.jumpTarget_eq (h : JumpInstr i taken m1 m2) (s : State) : s.jumpTarget i = s.operand m2 2 := by
  cases h <;> rfl

theorem JumpInstr.jumpCondition_iff (h : JumpInstr i taken m1 m2) (h1 : s.operand m1 1 = some p1) :
    s.jumpCondition i ↔ taken p1 = true := by
  cases h with
  | jt => simp [State.jumpCondition, h1, nonZero_eq_decide]
  | jf => simp [State.jumpCondition, h1, nonZero_eq_decide]

theorem JumpInstr.raises_iff (h : JumpInstr i taken m1 m2) : s.Raises i k ↔
    (s.operandOutOfBounds m1 1 ∨ s.operandOutOfBounds m2 2) ∧ k = .outOfBounds := by
  cases h <;> exact State.raises_iff_of_legal (by simp) (by simp)

theorem conditionalJump_of_resolved (opc : Int) (taken : Word → Bool) (h1 : s.operand m1 1 = some p1)
    (h2 : s.operand m2 2 = some p2) :
    conditionalJump opc taken m1 m2 s = if taken p1 then s.jump p2 else s.advance 3 := by
  obtain ⟨hnone, -⟩ | ⟨q1, q2, hq1, hq2, hx⟩ := conditionalJump_cases opc taken m1 m2 s
  · simp [h1, h2] at hnone
  · cases hq1.symm.trans h1
    cases hq2.symm.trans h2
    exact hx

theorem execIn_of_resolved (hv : s.nextInput = some v) (hd : s.destination 1 = some d) :
    execIn s = .next ((s.store d v).consumeInput.advance 2) := by
  simp only [execIn, hv, hd]
  rfl

/-! ### Every instruction has one of the outcomes -/

theorem BinaryInstr.outcome (hi : BinaryInstr i f m1 m2) :
    s.Outcome i (binaryToMemory i.opcode f m1 m2 s) := by
  obtain ⟨hnone, h⟩ | ⟨p1, p2, d, h1, h2, hd, h⟩ := binaryToMemory_cases i.opcode f m1 m2 s <;> rw [h]
  · simp only [State.operand_eq_none_iff, State.destination_eq_none_iff] at hnone
    exact .raises (hi.raises_iff.mpr ⟨hnone, rfl⟩)
  · exact .completes (.store hi h1 h2 hd)

theorem JumpInstr.outcome (hi : JumpInstr i taken m1 m2) :
    s.Outcome i (conditionalJump i.opcode taken m1 m2 s) := by
  obtain ⟨hnone, h⟩ | ⟨p1, p2, h1, h2, h⟩ := conditionalJump_cases i.opcode taken m1 m2 s <;> rw [h]
  · simp only [State.operand_eq_none_iff] at hnone
    exact .raises (hi.raises_iff.mpr ⟨hnone, rfl⟩)
  · cases ht : taken p1
    · exact .completes (.pass hi h1 h2 ht)
    · exact .completes (.jump hi h1 h2 ht)

/-- Every instruction answers a next state, which is one of its outcomes. -/
theorem exec_outcome (i : Instr) (s : State) : ∃ t, exec i s = .next t ∧ s.Outcome i t := by
  cases i with
  | add m1 m2 => exact ⟨_, rfl, (BinaryInstr.add m1 m2).outcome⟩
  | mul m1 m2 => exact ⟨_, rfl, (BinaryInstr.mul m1 m2).outcome⟩
  | lt m1 m2 => exact ⟨_, rfl, (BinaryInstr.lt m1 m2).outcome⟩
  | eq m1 m2 => exact ⟨_, rfl, (BinaryInstr.eq m1 m2).outcome⟩
  | jt m1 m2 => exact ⟨_, rfl, (JumpInstr.jt m1 m2).outcome⟩
  | jf m1 m2 => exact ⟨_, rfl, (JumpInstr.jf m1 m2).outcome⟩
  | inp =>
    obtain ⟨hnone, h⟩ | ⟨v, hv, hnone, h⟩ | ⟨v, d, hv, hd, h⟩ := execIn_cases s
    · exact ⟨_, h, .raises (k := .inputExhausted) ⟨rfl, hnone⟩⟩
    · exact ⟨_, h, .raises (k := .outOfBounds) ⟨State.destination_eq_none_iff.mp hnone, by simp [hv]⟩⟩
    · exact ⟨_, h, .completes (.take hv hd)⟩
  | out m1 =>
    obtain ⟨hnone, h⟩ | ⟨p, hp, h⟩ := execOut_cases m1 s
    · exact ⟨_, h, .raises (k := .outOfBounds) ⟨State.operand_eq_none_iff.mp hnone, by simp⟩⟩
    · exact ⟨_, h, .completes (.push hp)⟩
  | hlt => exact ⟨_, rfl, .completes .halt⟩
  | illegal opc => exact ⟨_, rfl, .raises (k := .unknownOpcode) ⟨opc, rfl⟩⟩

theorem outcome_of_exec (h : exec i s = .next t) : s.Outcome i t := by
  obtain ⟨u, hu, ho⟩ := exec_outcome i s
  cases hu.symm.trans h
  exact ho

/-- An instruction that completes has no fatal condition to raise. -/
theorem State.Completes.not_raises (h : s.Completes i t) (k : FatalKind) : ¬ s.Raises i k := by
  cases h with
  | store hi h1 h2 hd =>
    rw [hi.raises_iff, ← State.operand_eq_none_iff, ← State.operand_eq_none_iff, ← State.destination_eq_none_iff]
    simp [h1, h2, hd]
  | take hv hd =>
    have hb : ¬ s.targetOutOfBounds 1 := by simp [← State.destination_eq_none_iff, hd]
    cases k <;> simp [State.Raises, State.addressOutOfBounds, hv, hb]
  | push hp =>
    rw [State.raises_iff_of_legal (by simp) (by simp), State.addressOutOfBounds, ← State.operand_eq_none_iff]
    simp [hp]
  | jump hi h1 h2 | pass hi h1 h2 =>
    rw [hi.raises_iff, ← State.operand_eq_none_iff, ← State.operand_eq_none_iff]
    simp [h1, h2]
  | halt =>
    rw [State.raises_iff_of_legal (by simp) (by simp)]
    simp [State.addressOutOfBounds]

/-- The order of the checks leaves one fatal condition (rule R168). -/
theorem State.Raises.unique {k' : FatalKind} (h : s.Raises i k) (h' : s.Raises i k') : k' = k := by
  cases k with
  | inputExhausted =>
    obtain ⟨rfl, hin⟩ := h
    cases k' <;> simp_all [State.Raises]
  | unknownOpcode =>
    obtain ⟨opc, rfl⟩ := h
    cases k' <;> simp_all [State.Raises, State.addressOutOfBounds]
  | outOfBounds =>
    obtain ⟨hb, hin⟩ := h
    cases k' with
    | inputExhausted => exact absurd h' hin
    | unknownOpcode => obtain ⟨opc, rfl⟩ := h'; exact hb.elim
    | outOfBounds => rfl

theorem exec_of_raises (h : s.Raises i k) : exec i s = .next (s.raise k (some i.opcode)) := by
  obtain ⟨t, ht, hr | hc⟩ := exec_outcome i s
  · cases h.unique hr
    exact ht
  · exact absurd h (hc.not_raises k)

theorem exec_of_completes (h : s.Completes i t) : exec i s = .next t := by
  cases h with
  | store hi h1 h2 hd => rw [hi.exec_eq, binaryToMemory_of_resolved _ _ h1 h2 hd]
  | take hv hd => exact execIn_of_resolved hv hd
  | push hp => exact exec_out_of_operand hp
  | jump hi h1 h2 ht => rw [hi.exec_eq, conditionalJump_of_resolved _ _ h1 h2, if_pos ht]
  | pass hi h1 h2 ht => rw [hi.exec_eq, conditionalJump_of_resolved _ _ h1 h2, ht]; rfl
  | halt => rfl

/-! ### Every step has one of the outcomes -/

theorem step_of_ended (hs : s.status ≠ .running) : step s = .next s := by
  cases h : s.status with
  | running => exact absurd h hs
  | halted | faulted => simp only [step, h]

theorem step_stepsTo (s : State) : ∃ t, step s = .next t ∧ s.StepsTo t := by
  by_cases hs : s.status = .running
  · cases hc : s.current with
    | none => exact ⟨_, step_of_current_eq_none hs hc, .fetchRaises hs hc⟩
    | some i =>
      obtain ⟨t, ht, ho⟩ := exec_outcome i s
      exact ⟨t, (step_of_current_eq_some hs hc).trans ht, .executes hs hc ho⟩
  · exact ⟨s, step_of_ended hs, .ended hs⟩

theorem stepsTo_of_step (h : step s = .next t) : s.StepsTo t := by
  obtain ⟨u, hu, hst⟩ := step_stepsTo s
  cases hu.symm.trans h
  exact hst

end

end Sys2Proof.Machine

/-! PROOFS. The whole machine: the invariant, the frames, and which steps end a run. -/

namespace Sys2Proof.Machine

section
variable {s t : State} {i : Instr} {k : FatalKind} {m : Mode} {d v p : Word}

/-! ### What an instruction that completes leaves unchanged, and what it changes -/

theorem State.Completes.inp_eq (h : s.Completes i t) : t.inp = s.inp := by cases h <;> rfl

theorem State.Completes.fault_eq (h : s.Completes i t) : t.fault = s.fault := by cases h <;> rfl

theorem State.Completes.status_eq (h : s.Completes i t) (hi : i ≠ .hlt) : t.status = s.status := by
  cases h with
  | halt => exact absurd rfl hi
  | _ => rfl

theorem State.Completes.eq_halt (h : s.Completes .hlt t) : t = s.halt := by
  cases h with
  | halt => rfl
  | store hi | jump hi | pass hi => cases hi

theorem State.Completes.eq_take (h : s.Completes .inp t) : ∃ v d, s.nextInput = some v ∧
    s.destination 1 = some d ∧ t = (s.store d v).consumeInput.advance 2 := by
  cases h with
  | take hv hd => exact ⟨_, _, hv, hd, rfl⟩
  | store hi | jump hi | pass hi => cases hi

theorem State.Completes.eq_push (h : s.Completes (.out m) t) : ∃ p, s.operand m 1 = some p ∧
    t = (s.emit p).advance 2 := by
  cases h with
  | push hp => exact ⟨_, hp, rfl⟩
  | store hi | jump hi | pass hi => cases hi

theorem State.Completes.status_ne_faulted (h : s.Completes i t) (hs : s.status = .running) : t.status ≠ .faulted := by
  cases h <;> simp [hs]

/-- Rule R14: only IN moves the cursor. -/
theorem State.Completes.cur_eq (h : s.Completes i t) (hi : i ≠ .inp) : t.cur = s.cur := by
  cases h with
  | take => exact absurd rfl hi
  | _ => rfl

theorem State.Completes.cur_eq_succ (h : s.Completes .inp t) : t.cur = s.cur + 1 ∧ s.cur < s.inp.length := by
  obtain ⟨v, d, hv, -, rfl⟩ := h.eq_take
  exact ⟨rfl, (List.getElem?_eq_some_iff.mp hv).1⟩

/-- Rule R15: only OUT appends to the output. -/
theorem State.Completes.out_eq (h : s.Completes i t) (hi : ∀ m, i ≠ .out m) : t.out = s.out := by
  cases h with
  | push => exact absurd rfl (hi _)
  | _ => rfl

/-- Rule R12: memory is unchanged, or the stored value is written at the destination, which is in bounds. -/
theorem State.Completes.mem_cases (h : s.Completes i t) : (s.storeTarget i = none ∧ t.mem = s.mem) ∨
    ∃ d v, s.storeTarget i = some d ∧ s.storedValue i = some v ∧ s.mem.InBounds d.toInt ∧
      t.mem = s.mem.write d.toInt v := by
  cases h with
  | store hi h1 h2 hd =>
    exact .inr ⟨_, _, (hi.storeTarget_eq s).trans hd, hi.storedValue_eq h1 h2, State.destination_inBounds hd, rfl⟩
  | take hv hd => exact .inr ⟨_, _, hd, hv, State.destination_inBounds hd, rfl⟩
  | push | halt => exact .inl ⟨rfl, rfl⟩
  | jump hi | pass hi => cases hi <;> exact .inl ⟨rfl, rfl⟩

theorem State.Completes.mem_len (h : s.Completes i t) : t.mem.len = s.mem.len := by
  obtain ⟨-, hm⟩ | ⟨d, v, -, -, -, hm⟩ := h.mem_cases <;> rw [hm]
  exact Memory.write_len _ _ _

theorem State.Completes.mem_wf (h : s.Completes i t) (hwf : s.mem.wf = true) : t.mem.wf = true := by
  obtain ⟨-, hm⟩ | ⟨d, v, -, -, -, hm⟩ := h.mem_cases <;> rw [hm]
  · exact hwf
  · exact Memory.wf_write _ _ _ hwf

theorem State.Completes.read_eq (h : s.Completes i t) {a : Int} (ha : ∀ d, s.storeTarget i = some d → a ≠ d.toInt) :
    t.mem.read a = s.mem.read a := by
  obtain ⟨-, hm⟩ | ⟨d, v, hd, -, -, hm⟩ := h.mem_cases <;> rw [hm]
  exact Memory.read_write_other _ _ _ _ (ha d hd)

/-! ### The word at ip, the input left, and the fatal conditions -/

theorem State.current_eq_none_iff : s.current = none ↔ ¬ s.mem.InBounds s.ip.toInt :=
  Option.map_eq_none_iff.trans (Memory.read_eq_none_iff _ _)

/-- The opcode of the word at ip is that of the instruction there. -/
theorem State.opcode_at_ip :
    (s.mem.read s.ip.toInt).map (fun w => (decodeWord w).opc) = s.current.map Instr.opcode := by
  simp only [State.current, State.fetch, Option.map_map]
  exact congrArg (fun g => (s.mem.read s.ip.toInt).map g) (funext fun w => (decode_opcode w).symm)

/-- Rule R14: with the cursor at most L, no input is left exactly at L. -/
theorem State.nextInput_eq_none_iff_cur_eq (hcur : s.cur ≤ s.inp.length) :
    s.nextInput = none ↔ s.cur = s.inp.length := by
  rw [nextInput_eq_none_iff]
  omega

/-- Rules R162 to R165: an instruction has a fatal condition to raise. -/
theorem State.exists_raises_iff : (∃ k, s.Raises i k) ↔
    (∃ opc, i = .illegal opc) ∨ (i = .inp ∧ s.nextInput = none) ∨ s.addressOutOfBounds i := by
  constructor
  · rintro ⟨k, h⟩
    cases k with
    | inputExhausted => exact .inr (.inl h)
    | unknownOpcode => exact .inl h
    | outOfBounds => exact .inr (.inr h.1)
  · rintro (h | h | h)
    · exact ⟨.unknownOpcode, h⟩
    · exact ⟨.inputExhausted, h⟩
    · by_cases hin : i = .inp ∧ s.nextInput = none
      · exact ⟨.inputExhausted, hin⟩
      · exact ⟨.outOfBounds, h, hin⟩

/-! ### The record that a raise leaves fits the machine -/

/-- Rule R161: an address out of bounds is the matter of opcodes 1 to 8 alone. -/
theorem opcode_range_of_addressOutOfBounds (h : s.addressOutOfBounds i) : 1 ≤ i.opcode ∧ i.opcode ≤ 8 := by
  cases i with
  | hlt | illegal opc => exact h.elim
  | _ => simp [Instr.opcode]

theorem State.opcode_not_legal {opc : Int} (hc : s.current = some (.illegal opc)) : opc ∉ legalOpcodes := by
  obtain ⟨w, -, hd⟩ := Option.map_eq_some_iff.mp hc
  have hopc : (decodeWord w).opc = opc := (selectInstr_opcode _).symm.trans (congrArg Instr.opcode hd)
  exact hopc ▸ (decode_eq_illegal_iff w).mp ⟨opc, hd⟩

theorem State.statusFits_fetchRaise (hc : s.current = none) : (s.raise .outOfBounds none).statusFits = true := by
  simp [State.statusFits, FaultRecord.fits, State.opcode_at_ip, hc]

theorem State.statusFits_raise (hcur : s.cur ≤ s.inp.length) (hc : s.current = some i) (h : s.Raises i k) :
    (s.raise k (some i.opcode)).statusFits = true := by
  simp only [State.statusFits, FaultRecord.fits, State.raise_status, State.raise_fault, State.raise_ip,
    State.raise_mem, State.raise_inp, State.raise_cur, State.opcode_at_ip, hc]
  cases k with
  | inputExhausted =>
    obtain ⟨rfl, hin⟩ := h
    simp [Instr.opcode, (State.nextInput_eq_none_iff_cur_eq hcur).mp hin]
  | unknownOpcode =>
    obtain ⟨opc, rfl⟩ := h
    simp [Instr.opcode, State.opcode_not_legal hc]
  | outOfBounds =>
    simp [opcode_range_of_addressOutOfBounds h.1]

theorem State.Completes.statusFits (h : s.Completes i t) (hs : s.status = .running) (hc : s.current = some i)
    (hfit : s.statusFits = true) : t.statusFits = true := by
  have hf : t.fault = none := h.fault_eq.trans (State.fault_eq_none_of_running hs hfit)
  by_cases hi : i = .hlt
  · subst hi
    cases h.eq_halt
    have hc' : s.halt.current = some .hlt := hc
    simp only [State.statusFits, State.halt_status, hf, hc', decide_true]
  · have ht : t.status = .running := (h.status_eq hi).trans hs
    simp only [State.statusFits, ht, hf]

theorem State.Completes.cur_le (h : s.Completes i t) (hcur : s.cur ≤ s.inp.length) : t.cur ≤ s.inp.length := by
  by_cases hi : i = .inp
  · subst hi
    obtain ⟨hsucc, hlt⟩ := h.cur_eq_succ
    omega
  · exact (h.cur_eq hi).le.trans hcur

end

/-- Settles O44, by what the step does: a raise leaves everything but a record that fits, and an instruction that
completes writes a canonical memory and moves the cursor only while input is left. -/
theorem everyStepKeepsTheInvariant : Obligations.EveryStepKeepsTheInvariant := by
  rintro s t ⟨hwf, hlen, hcur, hfit⟩ h
  cases stepsTo_of_step h with
  | ended => exact ⟨hwf, hlen, hcur, hfit⟩
  | fetchRaises hs hc => exact ⟨hwf, hlen, hcur, State.statusFits_fetchRaise hc⟩
  | executes hs hc ho =>
    cases ho with
    | raises hr => exact ⟨hwf, hlen, hcur, State.statusFits_raise hcur hc hr⟩
    | completes hd =>
      exact ⟨hd.mem_wf hwf, hd.mem_len.le.trans hlen, hd.inp_eq ▸ hd.cur_le hcur, hd.statusFits hs hc hfit⟩

/-! ### Fatal conditions -/

/-- Settles O23: the address out of bounds is what the instruction raises, since for IN the input is not exhausted. -/
theorem unresolvableOperandRaisesOutOfBounds : Obligations.UnresolvableOperandRaisesOutOfBounds := by
  intro i s h hin
  have hr : s.Raises i .outOfBounds :=
    ⟨h, fun ⟨hi, hnone⟩ => absurd ((nextInput_eq_none_iff s).mp hnone) (hin hi).not_ge⟩
  exact exec_of_raises hr

/-- Settles O26: OutOfBounds is raised at the fetch or by the instruction at ip, and the cursor is not behind L. -/
theorem outOfBoundsExactlyForBadAddresses : Obligations.OutOfBoundsExactlyForBadAddresses := by
  intro s t hi hs h
  have hend : s.nextInput = none ↔ s.cur = s.inp.length := by
    obtain ⟨-, -, hcur, -⟩ := hi
    exact State.nextInput_eq_none_iff_cur_eq hcur
  rw [← State.faultKind_eq_some_iff, step_faultKind_iff hi hs h, ← State.current_eq_none_iff]
  simp only [State.Raises, hend, and_true]

/-- Settles O27: the step raised, at the fetch or in the instruction at ip. -/
theorem faultsArePrecise : Obligations.FaultsArePrecise := by
  intro s t hs h ht
  rw [State.opcode_at_ip]
  cases stepsTo_of_step h with
  | ended hn => exact absurd hs hn
  | fetchRaises _ hc => exact ⟨_, rfl, rfl, by simp [hc]⟩
  | executes _ hc ho =>
    cases ho with
    | raises hr => exact ⟨_, rfl, rfl, by simp [hc]⟩
    | completes hd => exact absurd ht (hd.status_ne_faulted hs)

/-- Settles O28: ip out of bounds is where there is no instruction to execute. -/
theorem fetchOutOfBoundsRaises : Obligations.FetchOutOfBoundsRaises := fun _ hs hb =>
  step_of_current_eq_none hs (State.current_eq_none_iff.mpr hb)

/-- Settles O37: among what a running machine can do, only HLT completes with status HALTED, and only a raise leaves
FAULTED. -/
theorem runsEndOnlyByHaltOrFatalCondition : Obligations.RunsEndOnlyByHaltOrFatalCondition := by
  rintro s t ⟨-, -, hcur, -⟩ hs h
  rw [← State.nextInput_eq_none_iff_cur_eq hcur]
  simp only [← State.exists_raises_iff]
  cases stepsTo_of_step h with
  | ended hn => exact absurd hs hn
  | fetchRaises _ hc => simp [hc]
  | @executes i _ _ hc ho =>
    simp only [hc, Option.some.injEq, exists_eq_left', reduceCtorEq, false_or]
    cases ho with
    | raises hr =>
      have hn : i ≠ .hlt := by
        rintro rfl
        exact State.Completes.halt.not_raises _ hr
      exact ⟨by simp [hn], iff_of_true rfl ⟨_, hr⟩⟩
    | completes hd =>
      refine ⟨⟨fun ht => ?_, ?_⟩, ?_⟩
      · by_contra hn
        simp [hd.status_eq hn, hs] at ht
      · rintro rfl
        rw [hd.eq_halt, State.halt_status]
      · simp [hd.status_ne_faulted hs, hd.not_raises]

/-! ### The channels and memory -/

/-- Settles O33: of the instructions that complete only IN moves the cursor, and it had input left to take. -/
theorem cursorMovesOnlyByIn : Obligations.CursorMovesOnlyByIn := by
  refine ⟨fun l => rfl, ?_⟩
  rintro s t ⟨-, -, hcur, -⟩ h
  have hend := State.nextInput_eq_none_iff_cur_eq hcur
  cases stepsTo_of_step h with
  | ended hn => exact ⟨fun hs => absurd hs hn, fun _ => rfl, hcur, rfl, hend⟩
  | fetchRaises _ hc => exact ⟨by simp [hc], fun _ => rfl, hcur, rfl, hend⟩
  | @executes i _ hs hc ho =>
    cases ho with
    | raises hr => exact ⟨by simp, fun _ => rfl, hcur, rfl, hend⟩
    | completes hd =>
      refine ⟨fun _ hin _ => ?_, fun hn => ?_, hd.cur_le hcur, hd.inp_eq, hend⟩
      · cases hc.symm.trans hin
        exact hd.cur_eq_succ.1
      · refine hd.cur_eq ?_
        rintro rfl
        exact hn ⟨hs, hc, (hd.status_eq (by simp)).trans hs⟩

/-- Settles O34: of the instructions that complete only OUT appends, and an OUT whose operand is resolved completes. -/
theorem outputGrowsOnlyByOut : Obligations.OutputGrowsOnlyByOut := by
  refine ⟨fun l => rfl, fun s t h => ?_⟩
  cases stepsTo_of_step h with
  | ended hn => exact ⟨fun _ _ hs => absurd hs hn, fun _ => rfl⟩
  | fetchRaises _ hc => exact ⟨by simp [hc], fun _ => rfl⟩
  | @executes i _ hs hc ho =>
    cases ho with
    | raises hr =>
      refine ⟨fun m p _ hout hp => ?_, fun _ => rfl⟩
      cases hc.symm.trans hout
      exact absurd hr ((State.Completes.push hp).not_raises _)
    | completes hd =>
      refine ⟨fun m p _ hout hp => ?_, fun hn => hd.out_eq ?_⟩
      · cases hc.symm.trans hout
        obtain ⟨q, hq, rfl⟩ := hd.eq_push
        cases hq.symm.trans hp
        rfl
      · rintro m rfl
        obtain ⟨q, hq, -⟩ := hd.eq_push
        exact hn m q ⟨hs, hc, hq⟩

/-- Settles O35: a completed instruction writes at its destination alone, and every other step leaves memory. -/
theorem onlyTheDestinationCellChanges : Obligations.OnlyTheDestinationCellChanges := by
  intro s t h
  cases stepsTo_of_step h with
  | ended | fetchRaises => exact ⟨rfl, rfl, fun _ ha => absurd rfl ha⟩
  | @executes i _ hs hc ho =>
    cases ho with
    | raises => exact ⟨rfl, rfl, fun _ ha => absurd rfl ha⟩
    | completes hd =>
      refine ⟨hd.mem_len, hd.inp_eq, fun a ha => ⟨hs, ?_⟩⟩
      by_contra hn
      exact ha (hd.read_eq fun d hdest heq => hn ⟨i, d, hc, hdest, heq⟩)

end Sys2Proof.Machine

/-! PROOFS. The whole machine: the results and the frames of the instructions, and reset. -/

namespace Sys2Proof.Machine

/-! ### ADD and MUL (decision D6) -/

/-- wrap64 of an integer is congruent to it. -/
theorem toInt_wrap64_sub_emod (v : Int) : ((wrap64 v).toInt - v) % 18446744073709551616 = 0 := by
  rw [wrap64, BitVec.toInt_ofInt]
  exact Int.emod_eq_emod_iff_emod_sub_eq_zero.mp Int.bmod_emod

theorem toInt_wrap64_of_fits {v : Int} (hmin : s64Min ≤ v) (hmax : v ≤ s64Max) : (wrap64 v).toInt = v :=
  toInt_ofInt_of_range hmin hmax

/-- Settles O13: ADD is the shared shape with the wrapped sum. -/
theorem addStoresTheWrappedSum : Obligations.AddStoresTheWrappedSum := by
  intro m1 m2 s p1 p2 d hN h1 h2 hd
  obtain ⟨hcell, hframe⟩ := binaryToMemory_storesAndAdvances 1 (f := sumCells) rfl hN h1 h2 hd
  exact ⟨_, sumCells p1 p2, rfl, hcell, toInt_wrap64_sub_emod _, toInt_wrap64_of_fits, hframe⟩

/-- Settles O14: MUL is the shared shape with the wrapped product. -/
theorem mulStoresTheWrappedProduct : Obligations.MulStoresTheWrappedProduct := by
  intro m1 m2 s p1 p2 d hN h1 h2 hd
  obtain ⟨hcell, hframe⟩ := binaryToMemory_storesAndAdvances 2 (f := productCells) rfl hN h1 h2 hd
  exact ⟨_, productCells p1 p2, rfl, hcell, toInt_wrap64_sub_emod _, toInt_wrap64_of_fits, hframe⟩

/-! ### IN, the jumps and HLT -/

/-- Settles O17, by its three cases in the order of the checks (decision D10). -/
theorem inputStoresTheNextValue : Obligations.InputStoresTheNextValue := by
  refine ⟨fun s v d hN hv hd => ?stores, fun s hcur => ?exhausted, fun s hcur hb => ?outOfBounds⟩
  case stores =>
    have hip : (s.advance 2).ip.toInt = s.ip.toInt + 2 :=
      advance_ip_toInt_of_slot_inBounds hN (State.slot_inBounds_of_destination hd) (by decide)
    have hcell : (s.mem.write d.toInt v).read d.toInt = some v :=
      Memory.read_write_same _ _ _ (State.destination_inBounds hd)
    exact ⟨_, execIn_of_resolved hv hd, hcell, rfl, hip, fun a => Memory.read_write_other _ _ a v,
      Memory.write_len _ _ _, rfl, rfl, rfl, rfl⟩
  case exhausted =>
    have hr : s.Raises .inp .inputExhausted := ⟨rfl, (State.nextInput_eq_none_iff_cur_eq hcur.le).mpr hcur⟩
    exact exec_of_raises hr
  case outOfBounds =>
    exact unresolvableOperandRaisesOutOfBounds .inp s hb fun _ => hcur

/-- What a jump with resolved operands answers. -/
theorem JumpInstr.exec_of_resolved {s : State} {i : Instr} {taken : Word → Bool} {m1 m2 : Mode} {p1 p2 : Word}
    (hi : JumpInstr i taken m1 m2) (h1 : s.operand m1 1 = some p1) (h2 : s.operand m2 2 = some p2) :
    exec i s = .next { s with ip := if taken p1 then p2 else (s.advance 3).ip } := by
  rw [hi.exec_eq, conditionalJump_of_resolved _ _ h1 h2]
  cases taken p1 <;> rfl

/-- Settles O19: both operands are resolved, so only the test of the first decides. -/
theorem jumpsFollowTheirCondition : Obligations.JumpsFollowTheirCondition := by
  intro m1 m2 s p1 p2 hN h1 h2
  have hip : (s.advance 3).ip.toInt = s.ip.toInt + 3 :=
    advance_ip_toInt_of_slot_inBounds hN (State.slot_inBounds_of_operand h1) (by decide)
  refine ⟨⟨_, (JumpInstr.jt m1 m2).exec_of_resolved h1 h2, fun hp => ?_, fun hp => ?_, rfl⟩,
    ⟨_, (JumpInstr.jf m1 m2).exec_of_resolved h1 h2, fun hp => ?_, fun hp => ?_, rfl⟩⟩
  · simp only [nonZero, hp, ne_eq, not_false_eq_true, decide_true, if_true]
  · simpa [nonZero, hp] using hip
  · simp only [nonZero, hp, ne_eq, not_true_eq_false, decide_false, Bool.not_false, if_true]
  · simpa [nonZero, hp] using hip

/-- A running machine whose instruction takes a jump goes to the target, with nothing else changed. -/
theorem step_of_jump {s : State} {i : Instr} {m1 m2 : Mode} {p2 : Word} (hs : s.status = .running)
    (hc : s.current = some i) (hi : i = .jt m1 m2 ∨ i = .jf m1 m2) (hj : s.jumpCondition i)
    (h2 : s.operand m2 2 = some p2) : step s = .next (s.jump p2) := by
  rw [step_of_current_eq_some hs hc]
  rcases hi with rfl | rfl
  · obtain ⟨p1, h1, hp⟩ := hj
    exact exec_of_completes (.jump (.jt m1 m2) h1 h2 (by simpa [nonZero_eq_decide] using hp))
  · exact exec_of_completes (.jump (.jf m1 m2) hj h2 (by decide))

/-- Settles O20: the jump checks no target, and the next fetch does. -/
theorem jumpOutOfBoundsFaultsAtTheNextFetch : Obligations.JumpOutOfBoundsFaultsAtTheNextFetch := by
  intro s i m1 m2 p2 hs hc hi hj h2 hb
  exact ⟨step_of_jump hs hc hi hj h2, fetchOutOfBoundsRaises (s.jump p2) hs hb⟩

/-- Settles O21: State.halt writes the status alone. -/
theorem haltEndsTheRun : Obligations.HaltEndsTheRun := fun s =>
  ⟨s.halt, rfl, s.halt_status, s.halt_ip, s.halt_mem, s.halt_inp, s.halt_cur, s.halt_out, s.halt_fault⟩

/-! ### Frames -/

/-- Settles O38: these instructions complete by a store, or raise. -/
theorem storingInstructionsChangeOneCell : Obligations.StoringInstructionsChangeOneCell := by
  intro i s t m1 m2 hi h
  cases outcome_of_exec h with
  | raises =>
    exact ⟨fun _ _ _ _ => rfl, fun _ _ => rfl, rfl, rfl, rfl, fun _ => rfl, .inr ⟨rfl, fun _ => rfl, rfl, rfl⟩⟩
  | completes hd =>
    have hout : ∀ m, i ≠ .out m := by rcases hi with rfl | rfl | rfl | rfl | rfl <;> simp
    have hhlt : i ≠ .hlt := by rcases hi with rfl | rfl | rfl | rfl | rfl <;> simp
    refine ⟨fun d hdest a ha => hd.read_eq ?_, fun hnone a => hd.read_eq (by simp [hnone]), hd.mem_len, hd.inp_eq,
      hd.out_eq hout, hd.cur_eq, .inl ⟨hd.status_eq hhlt, hd.fault_eq⟩⟩
    intro e he
    cases hdest.symm.trans he
    exact ha

/-- Settles O39: none of these instructions has a destination. -/
theorem otherInstructionsChangeNoCell : Obligations.OtherInstructionsChangeNoCell := by
  intro i s t m1 m2 opc hi h
  cases outcome_of_exec h with
  | raises => exact ⟨fun _ => rfl, rfl, rfl, rfl, fun _ => rfl, .inr (.inr ⟨rfl, rfl, rfl⟩)⟩
  | completes hd =>
    have hnone : s.storeTarget i = none := by rcases hi with rfl | rfl | rfl | rfl | rfl <;> rfl
    have hinp : i ≠ .inp := by rcases hi with rfl | rfl | rfl | rfl | rfl <;> simp
    refine ⟨fun a => hd.read_eq (by simp [hnone]), hd.mem_len, hd.inp_eq, hd.cur_eq hinp, fun hne => hd.out_eq ?_, ?_⟩
    · rintro m rfl
      rcases hi with hi | hi | hi | hi | hi <;> simp_all
    · by_cases hhlt : i = .hlt
      · subst hhlt
        cases hd.eq_halt
        exact .inr (.inl ⟨rfl, rfl, rfl, rfl⟩)
      · exact .inl ⟨hd.status_eq hhlt, hd.fault_eq⟩

/-- An instruction of four cells with a destination and a value to store completes. -/
theorem BinaryInstr.exists_completes {s : State} {i : Instr} {f : Word → Word → Word} {m1 m2 : Mode} {d v : Word}
    (hi : BinaryInstr i f m1 m2) (hd : s.storeTarget i = some d) (hv : s.storedValue i = some v) :
    ∃ t, s.Completes i t := by
  have hoperands : ∃ p1 p2, s.operand m1 1 = some p1 ∧ s.operand m2 2 = some p2 := by
    cases hi <;>
    · obtain ⟨p1, h1, hv⟩ := Option.bind_eq_some_iff.mp hv
      obtain ⟨p2, h2, -⟩ := Option.map_eq_some_iff.mp hv
      exact ⟨p1, p2, h1, h2⟩
  obtain ⟨p1, p2, h1, h2⟩ := hoperands
  exact ⟨_, .store hi h1 h2 ((hi.storeTarget_eq s).symm.trans hd)⟩

theorem State.exists_completes_of_store {s : State} {i : Instr} {d v : Word} (hd : s.storeTarget i = some d)
    (hv : s.storedValue i = some v) : ∃ t, s.Completes i t := by
  cases i with
  | add m1 m2 => exact (BinaryInstr.add m1 m2).exists_completes hd hv
  | mul m1 m2 => exact (BinaryInstr.mul m1 m2).exists_completes hd hv
  | lt m1 m2 => exact (BinaryInstr.lt m1 m2).exists_completes hd hv
  | eq m1 m2 => exact (BinaryInstr.eq m1 m2).exists_completes hd hv
  | inp => exact ⟨_, .take hv hd⟩
  | out | jt | jf | hlt | illegal => cases hd

/-- Settles O36: the instruction completes, so the stored value stands at the destination and nowhere else. -/
theorem storesAreSeenByTheNextFetch : Obligations.StoresAreSeenByTheNextFetch := by
  intro s t i d v hs hc hd hv h
  cases stepsTo_of_step h with
  | ended hn => exact absurd hs hn
  | fetchRaises _ hn => cases hn.symm.trans hc
  | executes _ hc' ho =>
    cases hc'.symm.trans hc
    cases ho with
    | raises hr =>
      obtain ⟨u, hu⟩ := State.exists_completes_of_store hd hv
      exact absurd hr (hu.not_raises _)
    | completes hcpl =>
      have hhlt : i ≠ .hlt := by rintro rfl; cases hd
      obtain ⟨hnone, -⟩ | ⟨d', v', hd', hv', hb, hm⟩ := hcpl.mem_cases
      · cases hnone.symm.trans hd
      cases hd'.symm.trans hd
      cases hv'.symm.trans hv
      have hsame : t.mem.read d.toInt = some v := hm ▸ Memory.read_write_same _ _ _ hb
      have hother : ∀ a, a ≠ d.toInt → t.mem.read a = s.mem.read a := fun a ha =>
        hm ▸ Memory.read_write_other _ _ _ _ ha
      exact ⟨(hcpl.status_eq hhlt).trans hs, fun hip => (congrArg (fun a : Word => t.mem.read a.toInt) hip).trans hsame,
        fun hip => hother _ (mt BitVec.toInt_inj.mp hip), fun k hk => hk ▸ hsame, fun k hk => hother _ hk⟩

/-! ### The step function and reset -/

/-- Settles O29: the word at ip is what the instruction at ip is decoded from. -/
theorem stepRunsTheDecodedInstruction : Obligations.StepRunsTheDecodedInstruction := fun _ _ hs hw =>
  step_of_current_eq_some hs (congrArg (Option.map decode) hw)

/-- Settles O30: an ended run is HALTED or FAULTED, and step answers the state in both. -/
theorem endedRunsStayAsTheyAre : Obligations.EndedRunsStayAsTheyAre := fun _ => step_of_ended

/-- Settles O31: no arm answers a fault or a refusal. -/
theorem stepAlwaysAnswersANextState : Obligations.StepAlwaysAnswersANextState := fun s =>
  (step_stepsTo s).imp fun _ => And.left

/-- Settles O41: reset reads nothing of the state it is applied in. -/
theorem resetEstablishesTheInitialState : Obligations.ResetEstablishesTheInitialState := fun _ _ => rfl

/-- Settles O43: reset starts a run with no record, the cursor at 0 and the launch's own memory. -/
theorem everyLaunchMeetsTheInvariant : Obligations.EveryLaunchMeetsTheInvariant := by
  intro l h
  simp only [Launch.wf, Bool.and_eq_true, decide_eq_true_eq] at h
  obtain ⟨hwf, hlen⟩ := h
  exact ⟨hwf, hlen, Nat.zero_le _, rfl⟩

/-- Settles O42: the empty launch is one the spec admits. -/
theorem resetStateMeetsTheInvariant : Obligations.ResetStateMeetsTheInvariant :=
  everyLaunchMeetsTheInvariant Launch.nothing rfl

end Sys2Proof.Machine

/-! PROOFS. The whole machine: what an instruction can read, and whole runs. -/

namespace Sys2Proof.Machine

section
variable {s t u : State} {i : Instr} {k : FatalKind}

/-! ### Noninterference: the same outcome at a state with another output, or another input and cursor -/

theorem State.Raises.of_out (h : s.Raises i k) (o : List Word) : ({ s with out := o } : State).Raises i k := by
  cases k <;> exact h

theorem State.Completes.of_out (h : s.Completes i t) (hi : ∀ m, i ≠ .out m) (o : List Word) :
    ({ s with out := o } : State).Completes i { t with out := o } := by
  cases h with
  | store hb h1 h2 hd => exact .store (s := { s with out := o }) hb h1 h2 hd
  | take hv hd => exact .take (s := { s with out := o }) hv hd
  | push => exact absurd rfl (hi _)
  | jump hj h1 h2 ht => exact .jump (s := { s with out := o }) hj h1 h2 ht
  | pass hj h1 h2 ht => exact .pass (s := { s with out := o }) hj h1 h2 ht
  | halt => exact .halt

theorem State.Raises.of_input (h : s.Raises i k) (hi : i ≠ .inp) (inp : List Word) (cur : Nat) :
    ({ s with inp := inp, cur := cur } : State).Raises i k := by
  cases k with
  | inputExhausted => exact absurd h.1 hi
  | unknownOpcode => exact h
  | outOfBounds => exact ⟨h.1, fun hin => hi hin.1⟩

theorem State.Completes.of_input (h : s.Completes i t) (hi : i ≠ .inp) (inp : List Word) (cur : Nat) :
    ({ s with inp := inp, cur := cur } : State).Completes i { t with inp := inp, cur := cur } := by
  cases h with
  | store hb h1 h2 hd => exact .store (s := { s with inp := inp, cur := cur }) hb h1 h2 hd
  | take => exact absurd rfl hi
  | push hp => exact .push (s := { s with inp := inp, cur := cur }) hp
  | jump hj h1 h2 ht => exact .jump (s := { s with inp := inp, cur := cur }) hj h1 h2 ht
  | pass hj h1 h2 ht => exact .pass (s := { s with inp := inp, cur := cur }) hj h1 h2 ht
  | halt => exact .halt

/-- A step that appends nothing to the output. -/
theorem emits_nothing {o : List Word} (ht : t.out = s.out) (h : step { s with out := o } = .next { t with out := o }) :
    ∃ emitted, t.out = s.out ++ emitted ∧ step { s with out := o } = .next { t with out := o ++ emitted } :=
  ⟨[], by simpa using ht, by simpa using h⟩

end

/-- Settles O49: OUT appends its operand to whatever output there is, and everything else a step does is done with the
output unread. -/
theorem noInstructionReadsTheOutput : Obligations.NoInstructionReadsTheOutput := by
  intro s t o h
  cases stepsTo_of_step h with
  | ended hn => exact emits_nothing rfl (step_of_ended (s := { s with out := o }) hn)
  | fetchRaises hs hc => exact emits_nothing rfl (step_of_current_eq_none (s := { s with out := o }) hs hc)
  | @executes i _ hs hc ho =>
    have hstep : step { s with out := o } = exec i { s with out := o } :=
      step_of_current_eq_some (s := { s with out := o }) hs hc
    cases ho with
    | raises hr => exact emits_nothing rfl (hstep.trans (exec_of_raises (hr.of_out o)))
    | completes hd =>
      by_cases hi : ∃ m, i = .out m
      · obtain ⟨m, rfl⟩ := hi
        obtain ⟨p, hp, rfl⟩ := hd.eq_push
        exact ⟨[p], rfl, hstep.trans (exec_of_completes (.push (s := { s with out := o }) hp))⟩
      · have hi' : ∀ m, i ≠ .out m := fun m hm => hi ⟨m, hm⟩
        exact emits_nothing (hd.out_eq hi') (hstep.trans (exec_of_completes (hd.of_out hi' o)))

/-- Settles O50: every outcome but those of IN is the same with another input and cursor. -/
theorem onlyInReadsTheInput : Obligations.OnlyInReadsTheInput := by
  intro s t inp cur hin h
  cases stepsTo_of_step h with
  | ended hn => exact step_of_ended (s := { s with inp := inp, cur := cur }) hn
  | fetchRaises hs hc => exact step_of_current_eq_none (s := { s with inp := inp, cur := cur }) hs hc
  | @executes i _ hs hc ho =>
    have hi : i ≠ .inp := fun hi => hin (hi ▸ hc)
    refine (step_of_current_eq_some (s := { s with inp := inp, cur := cur }) hs hc).trans ?_
    cases ho with
    | raises hr => exact exec_of_raises (hr.of_input hi inp cur)
    | completes hd => exact exec_of_completes (hd.of_input hi inp cur)

/-! ### How ip moves -/

/-- An increment to the cell behind a slot in bounds stays within N and does not wrap. -/
theorem State.advance_ip_of_last_slot {s : State} {n : Nat} (hN : s.mem.len ≤ Config.maxLen)
    (hslot : s.mem.InBounds (s.slot n)) :
    (s.advance (n + 1)).ip.toInt = s.ip.toInt + (n + 1 : Nat) ∧ (s.advance (n + 1)).ip.toInt ≤ s.mem.len := by
  have hip := advance_ip_toInt_of_slot_inBounds hN hslot (n := n + 1) (by omega)
  refine ⟨hip, hip.trans_le ?_⟩
  have hlast : s.ip.toInt + (n : Int) < s.mem.len := hslot.2
  push_cast
  omega

/-- Rules R96, R97: an instruction that completes ends the run, takes a jump, or moves ip past its last slot. -/
theorem State.Completes.ip_cases {s t : State} {i : Instr} (h : s.Completes i t) (hN : s.mem.len ≤ Config.maxLen) :
    i = .hlt ∨ (∃ target, s.jumpCondition i ∧ s.jumpTarget i = some target) ∨
      (s.ip.toInt + 2 ≤ t.ip.toInt ∧ t.ip.toInt ≤ s.mem.len) := by
  have hpast : ∀ n, 1 ≤ n → s.mem.InBounds (s.slot n) → t.ip = (s.advance (n + 1)).ip →
      s.ip.toInt + 2 ≤ t.ip.toInt ∧ t.ip.toInt ≤ s.mem.len := by
    intro n hn hslot hip
    obtain ⟨hadv, hle⟩ := State.advance_ip_of_last_slot hN hslot
    rw [hip]
    push_cast at hadv
    exact ⟨by omega, hle⟩
  cases h with
  | halt => exact .inl rfl
  | jump hj h1 h2 ht => exact .inr (.inl ⟨_, (hj.jumpCondition_iff h1).mpr ht, (hj.jumpTarget_eq s).trans h2⟩)
  | store _ _ _ hd => exact .inr (.inr (hpast 3 (by decide) (State.slot_inBounds_of_destination hd) rfl))
  | take _ hd => exact .inr (.inr (hpast 1 (by decide) (State.slot_inBounds_of_destination hd) rfl))
  | push hp => exact .inr (.inr (hpast 1 (by decide) (State.slot_inBounds_of_operand hp) rfl))
  | pass _ _ h2 _ => exact .inr (.inr (hpast 2 (by decide) (State.slot_inBounds_of_operand h2) rfl))

/-- A step that ends running completed the instruction at ip, which was no HLT. -/
theorem completes_of_step_running {s t : State} (hs : s.status = .running) (h : step s = .next t)
    (ht : t.status = .running) : ∃ i, s.current = some i ∧ i ≠ .hlt ∧ s.Completes i t := by
  cases stepsTo_of_step h with
  | ended hn => exact absurd hs hn
  | fetchRaises => cases ht
  | @executes i _ _ hc ho =>
    cases ho with
    | raises => cases ht
    | completes hd =>
      refine ⟨i, hc, ?_, hd⟩
      rintro rfl
      cases hd.eq_halt
      cases ht

/-- Settles O45: the step completed an instruction at an ip inside memory, and it was neither HLT nor a taken jump. -/
theorem incrementsNeverPassTheEnd : Obligations.IncrementsNeverPassTheEnd := by
  rintro s t ⟨-, hN, -, -⟩ hs hj h ht
  obtain ⟨i, hc, hhlt, hd⟩ := completes_of_step_running hs h ht
  obtain ⟨hip, -⟩ := ip_inBounds_of_current hc
  obtain hi | ⟨target, hcond, htarget⟩ | ⟨hlow, hhigh⟩ := hd.ip_cases hN
  · exact absurd hi hhlt
  · exact absurd ⟨i, target, hc, hcond, htarget⟩ hj
  · exact ⟨hlow, by omega, hhigh⟩

/-! ### Whole runs -/

/-- One step more, at the end of a run. -/
theorem State.after_succ {s t u : State} {k : Nat} (h : s.after k = some t) (hu : step t = .next u) :
    s.after (k + 1) = some u := by
  induction k generalizing s with
  | zero =>
    cases h
    simp [State.after, Host.Core.run, core, hu, nextOf]
  | succ k ih =>
    obtain ⟨s', hs', -⟩ := step_stepsTo s
    have hafter : ∀ n, s.after (n + 1) = s'.after n := fun n => by
      simp [State.after, Host.Core.run, core, hs']
    rw [hafter] at h ⊢
    exact ih h

/-- Induction along a run: every number of steps leaves a state, and what every step keeps holds of it. -/
theorem State.after_induction {s : State} {P : Nat → State → Prop} (h0 : P 0 s)
    (hstep : ∀ k t u, s.after k = some t → P k t → step t = .next u → P (k + 1) u) (k : Nat) :
    ∃ t, s.after k = some t ∧ P k t := by
  induction k with
  | zero => exact ⟨s, rfl, h0⟩
  | succ k ih =>
    obtain ⟨t, ht, hP⟩ := ih
    obtain ⟨u, hu, -⟩ := step_stepsTo t
    exact ⟨u, State.after_succ ht hu, hstep k t u ht hP hu⟩

/-- Settles O46: the taken jump leaves the same state, at every step again. -/
theorem jumpToItselfNeverEnds : Obligations.JumpToItselfNeverEnds := by
  intro s i m1 m2 hs hc hi hj h2 k
  have hself : step s = .next s := step_of_jump hs hc hi hj h2
  obtain ⟨t, ht, rfl⟩ := State.after_induction (P := fun _ t => t = s) rfl
    (by rintro k t u - rfl hu; cases hself.symm.trans hu; rfl) k
  exact ht

/-- The state of a run after k steps, while ip grows by at least n a step and a step leaves it at most N. -/
structure State.GrowsBy (n N k : Nat) (t : State) : Prop where
  inv : t.Inv
  len : t.mem.len = N
  low : t.status = .running → (n * k : Nat) ≤ t.ip.toInt
  high : t.status = .running → k ≠ 0 → t.ip.toInt ≤ N

/-- A run whose every step from running to running moves ip up by at least n, to at most N, has ended after
floor(N/n) + 1 steps. -/
theorem ended_of_growth {l : Launch} (hl : l.wf = true) {n : Nat} (hn : 0 < n)
    (hgrow : ∀ k t u, (State.ofLaunch l).after k = some t → t.Inv → t.status = .running → step t = .next u →
      u.status = .running → t.ip.toInt + n ≤ u.ip.toInt ∧ u.ip.toInt ≤ t.mem.len) :
    ∃ t, (State.ofLaunch l).after (l.mem0.len / n + 1) = some t ∧ t.Ended := by
  have hstart : State.GrowsBy n l.mem0.len 0 (State.ofLaunch l) :=
    ⟨everyLaunchMeetsTheInvariant l hl, rfl, fun _ => by simp [resetVector_toInt], fun _ h => absurd rfl h⟩
  have hstep : ∀ k t u, (State.ofLaunch l).after k = some t → State.GrowsBy n l.mem0.len k t → step t = .next u →
      State.GrowsBy n l.mem0.len (k + 1) u := by
    intro k t u hk ht hu
    have hrun : u.status = .running → t.status = .running := by
      intro hur
      by_contra hn
      cases (step_of_ended hn).symm.trans hu
      exact hn hur
    refine ⟨everyStepKeepsTheInvariant t u ht.inv hu, (onlyTheDestinationCellChanges t u hu).1.trans ht.len,
      fun hur => ?_, fun hur _ => ?_⟩
    · have hlow := ht.low (hrun hur)
      have hup := (hgrow k t u hk ht.inv (hrun hur) hu hur).1
      push_cast at hlow ⊢
      linarith
    · exact ht.len ▸ (hgrow k t u hk ht.inv (hrun hur) hu hur).2
  obtain ⟨t, ht, hg⟩ := State.after_induction hstart hstep (l.mem0.len / n + 1)
  refine ⟨t, ht, fun hrun => ?_⟩
  have hbeyond : l.mem0.len < n * (l.mem0.len / n + 1) := Nat.lt_mul_div_succ _ hn
  have hle := (hg.low hrun).trans (hg.high hrun (Nat.succ_ne_zero _))
  omega

/-- Settles O47: while no jump is taken ip grows by at least 2. -/
theorem runsWithoutTakenJumpsEnd : Obligations.RunsWithoutTakenJumpsEnd := by
  intro l hl hj
  refine ended_of_growth hl (by decide) fun k t u hk hi ht hu hur => ?_
  obtain ⟨hlow, -, hhigh⟩ := incrementsNeverPassTheEnd t u hi ht (hj k t hk ht) hu hur
  exact ⟨hlow, hhigh⟩

/-- Settles O48: ADD and MUL take no jump and move ip by 4, and HLT ends the run. -/
theorem arithmeticRunsEnd : Obligations.ArithmeticRunsEnd := by
  intro l hl honly
  refine ended_of_growth hl (by decide) fun k t u hk hi ht hu hur => ?_
  obtain ⟨i, hc, hhlt, -⟩ := completes_of_step_running ht hu hur
  obtain ⟨m1, m2, hadd⟩ := (honly k t i hk ht hc).resolve_right hhlt
  have hj : ¬ t.takesJump := by
    rintro ⟨j, target, hcj, hcond, -⟩
    cases hcj.symm.trans hc
    rcases hadd with rfl | rfl <;> exact hcond
  obtain ⟨-, -, hhigh⟩ := incrementsNeverPassTheEnd t u hi ht hj hu hur
  obtain ⟨h4, -⟩ := everyInstructionControlsIpByTheTable.2.2 t u i hi ht hc hu (by simp [hur])
  exact ⟨(h4 m1 m2 (hadd.elim .inl fun h => .inr (.inl h))).ge, hhigh⟩

end Sys2Proof.Machine

/-! PROOFS. The families of 30_encoding.md and 40_decoder.md: every word, and the canonical words. -/

namespace Sys2Proof

/-! ### Words of either sign -/

theorem opcodeDigits_of_neg {w : Int} (h : w < 0) : opcodeDigits w = -(-w % 100) := by
  rw [← opcodeDigits_of_nonneg (by omega : 0 ≤ -w), opcodeDigits_neg, neg_neg]

/-- No digit of a negative word is 1, so its modes are positional. -/
theorem modeOfDigit_modeDigit_of_neg {w weight : Int} (h : w < 0) (hw : 0 ≤ weight) :
    modeOfDigit (modeDigit weight w) = .pos := by
  have hdigit : 0 ≤ modeDigit weight (-w) := by
    rw [modeDigit_of_nonneg (by omega) hw]
    exact Int.emod_nonneg _ (by decide)
  rw [modeDigit_neg] at hdigit
  rw [modeOfDigit_eq_pos_iff]
  omega

/-- Settles O2: truncated division gives a negative word the opcode and the digits of its magnitude, negated. -/
theorem negativeWordsSelectNoInstruction : Obligations.NegativeWordsSelectNoInstruction := by
  intro w h
  have hw : decodeWord w = { opc := -(-w.toInt % 100), m1 := .pos, m2 := .pos, m3 := .pos } := by
    simp only [decodeWord, opcodeDigits_of_neg h, modeOfDigit_modeDigit_of_neg h (by decide : (0 : Int) ≤ 100),
      modeOfDigit_modeDigit_of_neg h (by decide : (0 : Int) ≤ 1000),
      modeOfDigit_modeDigit_of_neg h (by decide : (0 : Int) ≤ 10000)]
  refine ⟨hw, ?_⟩
  rw [decode, hw]
  refine selectInstr_eq_illegal ?_
  simp only [legalOpcodes, List.mem_cons, List.not_mem_nil, or_false]
  omega

/-- Settles O3: every word but the least s64 has its negative, and truncated division is symmetric. -/
theorem decodingIsSymmetricInTheSign : Obligations.DecodingIsSymmetricInTheSign := by
  intro w h
  have hneg : (-w).toInt = -w.toInt := BitVec.toInt_neg_of_ne_intMin fun hmin => h (hmin ▸ by decide)
  rw [hneg]
  exact ⟨opcodeDigits_neg _, modeDigit_neg _ _, modeDigit_neg _ _, modeDigit_neg _ _⟩

/-! ### The five low digits -/

/-- The decoder of a number that a word holds as a value that is not negative. -/
theorem decodeWord_ofNat {n : Nat} (hn : n < 2 ^ 63) :
    decodeWord (BitVec.ofNat 64 n) =
      { opc := ((n % 100 : Nat) : Int)
        m1 := modeOfDigit (n / 100 % 10 : Nat)
        m2 := modeOfDigit (n / 1000 % 10 : Nat)
        m3 := modeOfDigit (n / 10000 % 10 : Nat) } := by
  have hval : (BitVec.ofNat 64 n).toNat = n := Nat.mod_eq_of_lt (by omega)
  have hpos : 0 ≤ (BitVec.ofNat 64 n).toInt := by
    rw [BitVec.toInt_eq_toNat_of_lt (by omega)]
    exact Int.natCast_nonneg _
  rw [decodeWord_of_nonneg hpos, hval, modeDigit_natCast, modeDigit_natCast, modeDigit_natCast]

/-- Settles O4: the opcode and the digits of a number are those of its remainder modulo 100000. -/
theorem onlyFiveLowDigitsMatter : Obligations.OnlyFiveLowDigitsMatter := by
  intro w h
  have hw : 2 * w.toNat < 2 ^ 64 := BitVec.toInt_pos_iff.mp h
  have hword : decodeWord w = decodeWord (BitVec.ofNat 64 w.toNat) := by rw [BitVec.ofNat_toNat, BitVec.setWidth_eq]
  have hdigit : w.toNat % 100000 % 100 = w.toNat % 100 ∧ w.toNat % 100000 / 100 % 10 = w.toNat / 100 % 10 ∧
      w.toNat % 100000 / 1000 % 10 = w.toNat / 1000 % 10 ∧ w.toNat % 100000 / 10000 % 10 = w.toNat / 10000 % 10 := by
    omega
  obtain ⟨hopc, h1, h2, h3⟩ := hdigit
  rw [hword, decodeWord_ofNat (by omega), decodeWord_ofNat (by omega), hopc, h1, h2, h3]

theorem modeOfDigit_natCast (d : Nat) : modeOfDigit d = if d = 1 then .imm else .pos := by
  simp only [modeOfDigit, Nat.cast_eq_one]

/-- Settles O5: the digits of the composed number are its parts. -/
theorem composedWordsDecode : Obligations.ComposedWordsDecode := by
  intro o a b c ho ha hb hc
  have hdigit : (o + 100 * a + 1000 * b + 10000 * c) % 100 = o ∧
      (o + 100 * a + 1000 * b + 10000 * c) / 100 % 10 = a ∧
      (o + 100 * a + 1000 * b + 10000 * c) / 1000 % 10 = b ∧
      (o + 100 * a + 1000 * b + 10000 * c) / 10000 % 10 = c := by
    omega
  obtain ⟨hopc, h1, h2, h3⟩ := hdigit
  rw [decodeWord_ofNat (by omega), hopc, h1, h2, h3, modeOfDigit_natCast, modeOfDigit_natCast, modeOfDigit_natCast]

/-! ### The opcode map -/

/-- Settles O6: the instruction is selected by the opcode, and carries the modes it uses alone. -/
theorem ignoredModeDigitsChangeNothing : Obligations.IgnoredModeDigitsChangeNothing := by
  intro w w' hopc
  refine ⟨fun h1 h2 => ?_, fun h4 h1 => ?_, ?_⟩
  · simp only [decode, selectInstr, hopc, h1, h2]
  · exact (selectInstr_eq_out h4).trans (h1 ▸ (selectInstr_eq_out (hopc ▸ h4)).symm)
  · rintro (h | h | h)
    · exact (selectInstr_eq_inp h).trans (selectInstr_eq_inp (hopc ▸ h)).symm
    · exact (selectInstr_eq_hlt h).trans (selectInstr_eq_hlt (hopc ▸ h)).symm
    · exact (selectInstr_eq_illegal h).trans (hopc ▸ (selectInstr_eq_illegal (hopc ▸ h)).symm)

/-- Settles O9: an illegal word has an opcode from -99 to 99 that is none of the nine, and the nine are well-formed. -/
theorem everyWordDecodesToWellFormed : Obligations.EveryWordDecodesToWellFormed := by
  intro w
  cases h : decode w with
  | illegal opc =>
    have hopc : (decodeWord w).opc = opc := (selectInstr_opcode _).symm.trans (congrArg Instr.opcode h)
    have hlegal : opc ∉ legalOpcodes := hopc ▸ (decode_eq_illegal_iff w).mp ⟨opc, h⟩
    have hrange : -99 ≤ opc ∧ opc ≤ 99 := hopc ▸ opcodeDigits_bounds w.toInt
    simp only [Instr.wf, hrange, hlegal, not_false_eq_true, decide_true, Bool.and_true]
  | _ => rfl

/-! ### The canonical words -/

theorem encode_eq_ofNat {i : Instr} {n : Nat} (h : i.opcode + i.modeDigits = n) : encode i = BitVec.ofNat 64 n := by
  rw [encode, h, BitVec.ofInt_natCast]

/-- A canonical digit is one that decodes to its mode. -/
theorem Mode.exists_digit (m : Mode) : ∃ d : Nat, m.digit = d ∧ d ≤ 9 ∧ (if d = 1 then Mode.imm else .pos) = m := by
  cases m with
  | pos => exact ⟨0, rfl, by decide, rfl⟩
  | imm => exact ⟨1, rfl, by decide, rfl⟩

/-- The decoder on a canonical word. -/
theorem decodeWord_encode {i : Instr} {o : Nat} {m1 m2 : Mode} (ho : o ≤ 99)
    (hi : i.opcode + i.modeDigits = o + (100 * m1.digit + 1000 * m2.digit)) :
    decodeWord (encode i) = { opc := o, m1 := m1, m2 := m2, m3 := .pos } := by
  obtain ⟨a, ha, ha9, hm1⟩ := m1.exists_digit
  obtain ⟨b, hb, hb9, hm2⟩ := m2.exists_digit
  have hword : encode i = BitVec.ofNat 64 (o + 100 * a + 1000 * b + 10000 * 0) :=
    encode_eq_ofNat (by rw [hi, ha, hb]; push_cast; ring)
  rw [hword, composedWordsDecode o a b 0 ho ha9 hb9 (by decide), hm1, hm2]
  rfl

/-- Settles O8: the canonical word of each of the nine holds its opcode and its modes, and the word of an illegal
instruction its opcode. -/
theorem decodeOfEncodeIsIdentity : Obligations.DecodeOfEncodeIsIdentity := by
  intro i hwf
  cases i with
  | add m1 m2 => rw [decode, decodeWord_encode (o := 1) (by decide) rfl]; rfl
  | mul m1 m2 => rw [decode, decodeWord_encode (o := 2) (by decide) rfl]; rfl
  | inp => rw [decode, decodeWord_encode (o := 3) (m1 := .pos) (m2 := .pos) (by decide) rfl]; rfl
  | out m1 =>
    have hdigits : (Instr.out m1).opcode + (Instr.out m1).modeDigits =
        (4 : Nat) + (100 * m1.digit + 1000 * Mode.pos.digit) := by cases m1 <;> rfl
    rw [decode, decodeWord_encode (by decide) hdigits]
    rfl
  | jt m1 m2 => rw [decode, decodeWord_encode (o := 5) (by decide) rfl]; rfl
  | jf m1 m2 => rw [decode, decodeWord_encode (o := 6) (by decide) rfl]; rfl
  | lt m1 m2 => rw [decode, decodeWord_encode (o := 7) (by decide) rfl]; rfl
  | eq m1 m2 => rw [decode, decodeWord_encode (o := 8) (by decide) rfl]; rfl
  | hlt => rw [decode, decodeWord_encode (o := 99) (m1 := .pos) (m2 := .pos) (by decide) rfl]; rfl
  | illegal opc =>
    have hopc : (decodeWord (encode (.illegal opc))).opc = opc := (Laws.OpcodeDigits.illegal opc hwf).1
    have hlegal : opc ∉ legalOpcodes := by
      simp only [Instr.wf, Bool.and_eq_true, decide_eq_true_eq] at hwf
      exact hwf.2
    exact (selectInstr_eq_illegal (hopc.symm ▸ hlegal)).trans (congrArg Instr.illegal hopc)

/-- Settles O10: the decoder computes on each of the words. -/
theorem writtenOutWordsDecode : Obligations.WrittenOutWordsDecode := by
  unfold Obligations.WrittenOutWordsDecode
  decide

end Sys2Proof

namespace Sys2Proof.Machine

/-- Settles O11: the bounds are those of the definition, and a read is made exactly within them. -/
theorem accessibleAddressesAreZeroToLength : Obligations.AccessibleAddressesAreZeroToLength := by
  refine fun m a => ⟨Iff.rfl, fun h hb => ?_, fun h hb => ?_, fun h hb => ?_, Memory.read_eq_none_iff m a⟩ <;>
    obtain ⟨hlow, hhigh⟩ := hb <;> omega

theorem modeBit_eq_one_iff (m : Mode) : modeBit m = 1 ↔ m = .imm := by cases m <;> decide

/-- Settles O58: an opcode from -99 to 99 fits in 8 bits. -/
theorem decoderPortsCarryTheDecodedWord : Obligations.DecoderPortsCarryTheDecodedWord := by
  intro w
  obtain ⟨hlow, hhigh⟩ := opcodeDigits_bounds w.toInt
  have hopc : (decoderPorts w).decOpc.toInt = (decodeWord w).opc := by
    rw [decoderPorts, BitVec.toInt_ofInt]
    exact Int.bmod_eq_of_le (hlow.trans' (by decide)) (hhigh.trans_lt (by decide))
  exact ⟨hopc, modeBit_eq_one_iff _, modeBit_eq_one_iff _, modeBit_eq_one_iff _⟩

end Sys2Proof.Machine

/-! PROOFS. The whole machine: the hardware view of a step, by phases. -/

namespace Sys2Proof

/-! ### The modes that an instruction carries are those of its word -/

/-- The mode of parameter 1 where it is used. -/
def Instr.mode1 : Instr → Option Mode
  | .add m1 _ | .mul m1 _ | .lt m1 _ | .eq m1 _ | .jt m1 _ | .jf m1 _ | .out m1 => some m1
  | .inp | .hlt | .illegal _ => none

/-- The mode of parameter 2 where it is used. -/
def Instr.mode2 : Instr → Option Mode
  | .add _ m2 | .mul _ m2 | .lt _ m2 | .eq _ m2 | .jt _ m2 | .jf _ m2 => some m2
  | .out _ | .inp | .hlt | .illegal _ => none

theorem selectInstr_mode1 (d : Decoded) : (selectInstr d).mode1 = none ∨ (selectInstr d).mode1 = some d.m1 := by
  unfold selectInstr
  split_ifs <;> simp [Instr.mode1]

theorem selectInstr_mode2 (d : Decoded) : (selectInstr d).mode2 = none ∨ (selectInstr d).mode2 = some d.m2 := by
  unfold selectInstr
  split_ifs <;> simp [Instr.mode2]

end Sys2Proof

namespace Sys2Proof.Machine

/-! ### The latches -/

/-- The latches after DECODE of a word. -/
def Latches.decoded (l : Latches) (w : Word) : Latches :=
  { l with
    ir := w
    opc := (decodeWord w).opc
    m1 := (decodeWord w).m1
    m2 := (decodeWord w).m2
    m3 := (decodeWord w).m3 }

/-- The decode latches hold the opcode of an instruction and the modes it uses. -/
structure Latches.Holds (l : Latches) (i : Instr) : Prop where
  opc : l.opc = i.opcode
  m1 : ∀ m, i.mode1 = some m → l.m1 = m
  m2 : ∀ m, i.mode2 = some m → l.m2 = m

theorem Latches.decoded_holds (l : Latches) (w : Word) : (l.decoded w).Holds (decode w) where
  opc := (selectInstr_opcode _).symm
  m1 m h := by
    obtain hn | hs := selectInstr_mode1 (decodeWord w)
    · cases hn.symm.trans h
    · exact Option.some.inj (hs.symm.trans h)
  m2 m h := by
    obtain hn | hs := selectInstr_mode2 (decodeWord w)
    · cases hn.symm.trans h
    · exact Option.some.inj (hs.symm.trans h)

section
variable {s t : State} {i : Instr} {l l' : Latches} {log : List Transaction} {k : FatalKind} {n : Nat} {r : Role}
  {roles : List Role} {f : Word → Word → Word} {taken : Word → Bool} {m m1 m2 : Mode} {p p1 p2 d v w : Word}

@[simp] theorem PhaseResult.andThen_of_raised (next : Latches → PhaseResult) :
    PhaseResult.andThen { latches := l, log := log, raised := some k } next =
      { latches := l, log := log, raised := some k } := rfl

@[simp] theorem PhaseResult.andThen_of_not_raised (next : Latches → PhaseResult) :
    PhaseResult.andThen { latches := l, log := log, raised := none } next =
      { next l with log := log ++ (next l).log } := rfl

/-! ### One parameter -/

/-- The value of a parameter, none where it cannot be resolved. -/
def State.paramValue (s : State) (m : Mode) (n : Nat) : Role → Option Word
  | .read => s.operand m n
  | .write => s.destination n

/-- The reads that resolving a parameter makes. -/
def State.paramReads (s : State) (m : Mode) (n : Nat) : Role → List Transaction
  | .read => readTransactions m (s.slot n) s.mem
  | .write => targetTransactions (s.slot n) s.mem

/-- The latch that a parameter is resolved into. -/
def Latches.setParam (l : Latches) (n : Nat) : Role → Word → Latches
  | .read => l.setOperand n
  | .write => fun d => { l with dest := d }

@[simp] theorem Latches.setParam_ir : (l.setParam n r v).ir = l.ir := by
  cases r <;> simp only [Latches.setParam, Latches.setOperand]
  split <;> rfl

@[simp] theorem Latches.setParam_modeOf : (l.setParam n r v).modeOf = l.modeOf := by
  cases r <;> simp only [Latches.setParam, Latches.setOperand]
  · split <;> rfl
  · rfl

theorem State.paramReads_isReadOf : ∀ x ∈ s.paramReads m n r, x.isReadOf s.mem := by
  cases r with
  | read => exact fun x => readTransactions_isReadOf
  | write => exact fun x => targetTransactions_isReadOf

theorem resolveParam_of_none (h : s.paramValue (l.modeOf n) n r = none) : resolveParam s n r l =
    { latches := l, log := s.paramReads (l.modeOf n) n r, raised := some .outOfBounds } := by
  cases r <;> simp only [State.paramValue] at h <;> simp only [resolveParam, State.paramReads, h]

theorem resolveParam_of_some (h : s.paramValue (l.modeOf n) n r = some v) : resolveParam s n r l =
    { latches := l.setParam n r v, log := s.paramReads (l.modeOf n) n r, raised := none } := by
  cases r <;> simp only [State.paramValue] at h <;>
    simp only [resolveParam, State.paramReads, Latches.setParam, h]

/-! ### The parameters in order -/

theorem resolveParams_cons_of_none (h : s.paramValue (l.modeOf n) n r = none) : resolveParams s n (r :: roles) l =
    { latches := l, log := s.paramReads (l.modeOf n) n r, raised := some .outOfBounds } := by
  rw [resolveParams, resolveParam_of_none h, PhaseResult.andThen_of_raised]

theorem resolveParams_cons_of_some (h : s.paramValue (l.modeOf n) n r = some v) : resolveParams s n (r :: roles) l =
    { resolveParams s (n + 1) roles (l.setParam n r v) with
      log := s.paramReads (l.modeOf n) n r ++ (resolveParams s (n + 1) roles (l.setParam n r v)).log } := by
  rw [resolveParams, resolveParam_of_some h, PhaseResult.andThen_of_not_raised]

theorem resolveParams_ir : (resolveParams s n roles l).latches.ir = l.ir := by
  induction roles generalizing n l with
  | nil => rfl
  | cons r rest ih =>
    cases h : s.paramValue (l.modeOf n) n r with
    | none => rw [resolveParams_cons_of_none h]
    | some v => rw [resolveParams_cons_of_some h]; exact ih.trans Latches.setParam_ir

theorem resolveParams_isReadOf : ∀ x ∈ (resolveParams s n roles l).log, x.isReadOf s.mem := by
  induction roles generalizing n l with
  | nil => simp [resolveParams]
  | cons r rest ih =>
    cases h : s.paramValue (l.modeOf n) n r with
    | none =>
      rw [resolveParams_cons_of_none h]
      exact State.paramReads_isReadOf
    | some v =>
      rw [resolveParams_cons_of_some h]
      exact List.forall_mem_append.mpr ⟨State.paramReads_isReadOf, ih⟩

/-- Only the modes of the latches matter for what is read and whether it raises. -/
theorem resolveParams_congr (hm : l.modeOf = l'.modeOf) :
    (resolveParams s n roles l).log = (resolveParams s n roles l').log ∧
      (resolveParams s n roles l).raised = (resolveParams s n roles l').raised := by
  induction roles generalizing n l l' with
  | nil => exact ⟨rfl, rfl⟩
  | cons r rest ih =>
    cases h : s.paramValue (l.modeOf n) n r with
    | none =>
      rw [resolveParams_cons_of_none h, resolveParams_cons_of_none (hm ▸ h), hm]
      exact ⟨rfl, rfl⟩
    | some v =>
      rw [resolveParams_cons_of_some h, resolveParams_cons_of_some (hm ▸ h), hm]
      obtain ⟨hlog, hraised⟩ := ih (n := n + 1) (l := l.setParam n r v) (l' := l'.setParam n r v) (by simp [hm])
      exact ⟨congrArg (s.paramReads (l'.modeOf n) n r ++ ·) hlog, hraised⟩

/-- One parameter that cannot be resolved is enough. -/
theorem resolveParams_raised_of_none {j : Nat} (hr : roles[j]? = some r)
    (hv : s.paramValue (l.modeOf (n + j)) (n + j) r = none) :
    (resolveParams s n roles l).raised = some .outOfBounds := by
  induction roles generalizing n l j with
  | nil => simp at hr
  | cons r' rest ih =>
    cases h : s.paramValue (l.modeOf n) n r' with
    | none => rw [resolveParams_cons_of_none h]
    | some v =>
      rw [resolveParams_cons_of_some h]
      cases j with
      | zero =>
        cases hr
        cases hv.symm.trans h
      | succ j => exact ih (j := j) hr (by rwa [Latches.setParam_modeOf, Nat.add_right_comm, Nat.add_assoc])

/-! ### OPERAND -/

theorem operandPhase_of_ne (h : l.opc ≠ 3) : operandPhase s l =
    resolveParams s 1 (((formatOfOpcode l.opc).map Format.params).getD []) l := by
  simp [operandPhase, inputPhase, h]

theorem operandPhase_of_exhausted (h : l.opc = 3) (hv : s.nextInput = none) :
    operandPhase s l = { latches := l, log := [], raised := some .inputExhausted } := by
  simp [operandPhase, inputPhase, h, hv]

theorem operandPhase_of_input (h : l.opc = 3) (hv : s.nextInput = some v) :
    operandPhase s l = resolveParams s 1 [.write] { l with inv := v } := by
  simp [operandPhase, inputPhase, h, hv, formatOfOpcode, Format.params]

theorem operandPhase_ir : (operandPhase s l).latches.ir = l.ir := by
  by_cases h : l.opc = 3
  · cases hv : s.nextInput with
    | none => rw [operandPhase_of_exhausted h hv]
    | some v => rw [operandPhase_of_input h hv, resolveParams_ir]
  · rw [operandPhase_of_ne h, resolveParams_ir]

theorem operandPhase_isReadOf : ∀ x ∈ (operandPhase s l).log, x.isReadOf s.mem := by
  by_cases h : l.opc = 3
  · cases hv : s.nextInput with
    | none => simp [operandPhase_of_exhausted h hv]
    | some v => rw [operandPhase_of_input h hv]; exact resolveParams_isReadOf
  · rw [operandPhase_of_ne h]; exact resolveParams_isReadOf

theorem operandPhase_congr (hopc : l.opc = l'.opc) (hm : l.modeOf = l'.modeOf) :
    (operandPhase s l).log = (operandPhase s l').log ∧ (operandPhase s l).raised = (operandPhase s l').raised := by
  by_cases h : l.opc = 3
  · cases hv : s.nextInput with
    | none =>
      rw [operandPhase_of_exhausted h hv, operandPhase_of_exhausted (hopc ▸ h) hv]
      exact ⟨rfl, rfl⟩
    | some v =>
      rw [operandPhase_of_input h hv, operandPhase_of_input (hopc ▸ h) hv]
      exact resolveParams_congr hm
  · rw [operandPhase_of_ne h, operandPhase_of_ne (hopc ▸ h), hopc]
    exact resolveParams_congr hm

/-! ### OPERAND of each shape of instruction -/

/-- The opcode's format says which parameters are resolved; only IN looks at the input first. -/
theorem operandPhase_of_format {fmt : Format} (hf : formatOfOpcode l.opc = some fmt) (hne : fmt ≠ .f1w) :
    operandPhase s l = resolveParams s 1 fmt.params l := by
  have h3 : l.opc ≠ 3 := by
    intro h
    rw [h] at hf
    exact hne (Option.some.inj hf).symm
  rw [operandPhase_of_ne h3, hf]
  rfl

theorem BinaryInstr.operandPhase_eq (hi : BinaryInstr i f m1 m2) (hl : l.Holds i) :
    operandPhase s l = resolveParams s 1 [.read, .read, .write] l ∧ l.modeOf 1 = m1 ∧ l.modeOf 2 = m2 := by
  have hf : formatOfOpcode l.opc = some .f3 := hl.opc ▸ by cases hi <;> rfl
  refine ⟨operandPhase_of_format hf (by decide), ?_⟩
  cases hi <;> exact ⟨hl.m1 _ rfl, hl.m2 _ rfl⟩

theorem JumpInstr.operandPhase_eq (hi : JumpInstr i taken m1 m2) (hl : l.Holds i) :
    operandPhase s l = resolveParams s 1 [.read, .read] l ∧ l.modeOf 1 = m1 ∧ l.modeOf 2 = m2 := by
  have hf : formatOfOpcode l.opc = some .f2 := hl.opc ▸ by cases hi <;> rfl
  refine ⟨operandPhase_of_format hf (by decide), ?_⟩
  cases hi <;> exact ⟨hl.m1 _ rfl, hl.m2 _ rfl⟩

theorem operandPhase_out (hl : l.Holds (.out m)) :
    operandPhase s l = resolveParams s 1 [.read] l ∧ l.modeOf 1 = m :=
  ⟨operandPhase_of_format (fmt := .f1r) (by rw [hl.opc]; rfl) (by decide), hl.m1 _ rfl⟩

theorem operandPhase_hlt (hl : l.Holds .hlt) :
    operandPhase s l = { latches := l, log := [], raised := none } :=
  operandPhase_of_format (fmt := .f0) (by rw [hl.opc]; rfl) (by decide)

/-- OPERAND raises what the instruction raises, when it is legal. -/
theorem BinaryInstr.operandPhase_raised (hi : BinaryInstr i f m1 m2) (hl : l.Holds i) (h : s.Raises i k) :
    (operandPhase s l).raised = some k := by
  obtain ⟨heq, h1, h2⟩ := hi.operandPhase_eq (s := s) hl
  obtain ⟨hb, rfl⟩ := hi.raises_iff.mp h
  simp only [← State.operand_eq_none_iff, ← State.destination_eq_none_iff] at hb
  rw [heq]
  obtain hb | hb | hb := hb
  · exact resolveParams_raised_of_none (j := 0) (r := .read) rfl (h1.symm ▸ hb)
  · exact resolveParams_raised_of_none (j := 1) (r := .read) rfl (h2.symm ▸ hb)
  · exact resolveParams_raised_of_none (j := 2) (r := .write) rfl hb

theorem JumpInstr.operandPhase_raised (hi : JumpInstr i taken m1 m2) (hl : l.Holds i) (h : s.Raises i k) :
    (operandPhase s l).raised = some k := by
  obtain ⟨heq, h1, h2⟩ := hi.operandPhase_eq (s := s) hl
  obtain ⟨hb, rfl⟩ := hi.raises_iff.mp h
  simp only [← State.operand_eq_none_iff] at hb
  rw [heq]
  obtain hb | hb := hb
  · exact resolveParams_raised_of_none (j := 0) (r := .read) rfl (h1.symm ▸ hb)
  · exact resolveParams_raised_of_none (j := 1) (r := .read) rfl (h2.symm ▸ hb)

theorem operandPhase_raised_out (hl : l.Holds (.out m)) (h : s.Raises (.out m) k) :
    (operandPhase s l).raised = some k := by
  obtain ⟨heq, h1⟩ := operandPhase_out (s := s) hl
  obtain ⟨hb, rfl⟩ := (State.raises_iff_of_legal (by simp) (by simp)).mp h
  rw [heq]
  exact resolveParams_raised_of_none (j := 0) (r := .read) rfl (h1.symm ▸ State.operand_eq_none_iff.mpr hb)

theorem operandPhase_raised_inp (hl : l.Holds .inp) (h : s.Raises .inp k) : (operandPhase s l).raised = some k := by
  cases hv : s.nextInput with
  | none =>
    have hr : s.Raises .inp .inputExhausted := ⟨rfl, hv⟩
    cases hr.unique h
    rw [operandPhase_of_exhausted hl.opc hv]
  | some v =>
    rw [operandPhase_of_input hl.opc hv]
    cases k with
    | inputExhausted => cases hv.symm.trans h.2
    | unknownOpcode => obtain ⟨opc, h⟩ := h; cases h
    | outOfBounds =>
      exact resolveParams_raised_of_none (j := 0) (r := .write) rfl (State.destination_eq_none_iff.mpr h.1)

theorem operandPhase_raised_of_raises (hl : l.Holds i) (hlegal : ∀ opc, i ≠ .illegal opc) (h : s.Raises i k) :
    (operandPhase s l).raised = some k := by
  cases i with
  | add m1 m2 => exact (BinaryInstr.add m1 m2).operandPhase_raised hl h
  | mul m1 m2 => exact (BinaryInstr.mul m1 m2).operandPhase_raised hl h
  | lt m1 m2 => exact (BinaryInstr.lt m1 m2).operandPhase_raised hl h
  | eq m1 m2 => exact (BinaryInstr.eq m1 m2).operandPhase_raised hl h
  | jt m1 m2 => exact (JumpInstr.jt m1 m2).operandPhase_raised hl h
  | jf m1 m2 => exact (JumpInstr.jf m1 m2).operandPhase_raised hl h
  | out m => exact operandPhase_raised_out hl h
  | inp => exact operandPhase_raised_inp hl h
  | hlt => exact absurd h (State.Completes.halt.not_raises k)
  | illegal opc => exact absurd rfl (hlegal opc)

/-! ### A step by phases -/

/-- FETCH and DECODE of a legal word leave the decoded latches and one transaction. -/
theorem phasesBeforeExecute_of_legal (hf : s.fetch = some w) (hlegal : (decodeWord w).opc ∈ legalOpcodes) :
    phasesBeforeExecute s l =
      { operandPhase s (l.decoded w) with log := .memRead s.ip.toInt w :: (operandPhase s (l.decoded w)).log } := by
  simp [phasesBeforeExecute, fetchPhase, decodePhase, hf, hlegal, Latches.decoded]

theorem phasesBeforeExecute_of_illegal (hf : s.fetch = some w) (hlegal : (decodeWord w).opc ∉ legalOpcodes) :
    phasesBeforeExecute s l =
      { latches := l.decoded w, log := [.memRead s.ip.toInt w], raised := some .unknownOpcode } := by
  simp [phasesBeforeExecute, fetchPhase, decodePhase, hf, hlegal, Latches.decoded]

theorem legal_of_decode (hlegal : ∀ opc, decode w ≠ .illegal opc) : (decodeWord w).opc ∈ legalOpcodes := by
  by_contra hn
  obtain ⟨opc, h⟩ := (decode_eq_illegal_iff w).mpr hn
  exact hlegal opc h

/-- When the instruction raises, the phases raise the same, after reads of stored cells that are the same for any
latches. -/
theorem stepByPhases_of_raises (hs : s.status = .running) (hf : s.fetch = some w) (h : s.Raises (decode w) k)
    (l : Latches) : ∃ reads, (∀ x ∈ reads, x.isReadOf s.mem) ∧
      ∀ l', stepByPhases l' s = (s.raise k (some (decode w).opcode), reads) := by
  have hfetch : (Transaction.memRead s.ip.toInt w).isReadOf s.mem := hf
  have hraise : ∀ {l l' reads}, phasesBeforeExecute s l = { latches := l', log := reads, raised := some k } →
      l'.ir = w → stepByPhases l s = (s.raise k (some (decode w).opcode), reads) := by
    intro l l' reads hp hir
    simp only [stepByPhases, hs, hp, hf, hir, reduceCtorEq, if_false, decode, selectInstr_opcode]
  by_cases hi : ∃ opc, decode w = .illegal opc
  · have hr : s.Raises (decode w) .unknownOpcode := hi
    cases hr.unique h
    refine ⟨[.memRead s.ip.toInt w], List.forall_mem_singleton.mpr hfetch, fun l' => ?_⟩
    exact hraise (phasesBeforeExecute_of_illegal hf ((decode_eq_illegal_iff w).mp hi)) rfl
  · have hlegal : ∀ opc, decode w ≠ .illegal opc := fun opc h => hi ⟨opc, h⟩
    refine ⟨.memRead s.ip.toInt w :: (operandPhase s (l.decoded w)).log,
      List.forall_mem_cons.mpr ⟨hfetch, operandPhase_isReadOf⟩, fun l' => ?_⟩
    have hlog : (operandPhase s (l'.decoded w)).log = (operandPhase s (l.decoded w)).log :=
      (operandPhase_congr (l := l'.decoded w) (l' := l.decoded w) rfl rfl).1
    refine hraise (l' := (operandPhase s (l'.decoded w)).latches) ?_ operandPhase_ir
    rw [phasesBeforeExecute_of_legal hf (legal_of_decode hlegal), hlog,
      ← operandPhase_raised_of_raises (l'.decoded_holds w) hlegal h]

/-- When nothing is raised, EXECUTE and COMMIT follow. -/
theorem stepByPhases_of_resolved (hs : s.status = .running) (hf : s.fetch = some w)
    (hlegal : ∀ opc, decode w ≠ .illegal opc)
    (h : operandPhase s (l.decoded w) = { latches := l', log := log, raised := none }) {c : Commit}
    (hc : executePhase s l' = c) :
    stepByPhases l s = (commitPhase s c, .memRead s.ip.toInt w :: log ++ commitTransactions c l'.inv) := by
  simp only [stepByPhases, hs, phasesBeforeExecute_of_legal hf (legal_of_decode hlegal), h, hc]

/-! ### EXECUTE and COMMIT of each shape of instruction -/

theorem BinaryInstr.executePhase_eq (hi : BinaryInstr i f m1 m2) (hl : l.opc = i.opcode) : executePhase s l =
    { write := some (l.dest, f l.p1 l.p2), take := false, push := none, ip := (s.advance 4).ip, halt := false } := by
  cases hi <;> simp [executePhase, hl, Instr.opcode, incrementedIp, formatOfOpcode, Format.length, Format.params]

theorem JumpInstr.executePhase_eq (hi : JumpInstr i taken m1 m2) (hl : l.opc = i.opcode) : executePhase s l =
    { write := none, take := false, push := none, ip := if taken l.p1 then l.p2 else (s.advance 3).ip,
      halt := false } := by
  cases hi <;> simp [executePhase, hl, Instr.opcode, incrementedIp, formatOfOpcode, Format.length, Format.params]

theorem executePhase_inp (hl : l.opc = 3) : executePhase s l =
    { write := some (l.dest, l.inv), take := true, push := none, ip := (s.advance 2).ip, halt := false } := by
  simp [executePhase, hl, incrementedIp, formatOfOpcode, Format.length, Format.params]

theorem executePhase_out (hl : l.opc = 4) : executePhase s l =
    { write := none, take := false, push := some l.p1, ip := (s.advance 2).ip, halt := false } := by
  simp [executePhase, hl, incrementedIp, formatOfOpcode, Format.length, Format.params]

theorem executePhase_hlt (hl : l.opc = 99) : executePhase s l =
    { write := none, take := false, push := none, ip := s.ip, halt := true } := by
  simp [executePhase, hl]

/-! ### The phases of the instructions that complete -/

theorem BinaryInstr.operandPhase_resolved (hi : BinaryInstr i f m1 m2) (hl : l.Holds i)
    (h1 : s.operand m1 1 = some p1) (h2 : s.operand m2 2 = some p2) (hd : s.destination 3 = some d) :
    operandPhase s l =
      { latches := ((l.setParam 1 .read p1).setParam 2 .read p2).setParam 3 .write d
        log := readTransactions m1 (s.slot 1) s.mem ++ readTransactions m2 (s.slot 2) s.mem ++
          targetTransactions (s.slot 3) s.mem
        raised := none } := by
  obtain ⟨heq, hm1, hm2⟩ := hi.operandPhase_eq (s := s) hl
  rw [heq, resolveParams_cons_of_some (v := p1) (hm1.symm ▸ h1),
    resolveParams_cons_of_some (v := p2) (by rw [Latches.setParam_modeOf, hm2]; exact h2),
    resolveParams_cons_of_some (v := d) (r := .write) (n := 3) hd]
  simp [resolveParams, State.paramReads, hm1, hm2]

theorem JumpInstr.operandPhase_resolved (hi : JumpInstr i taken m1 m2) (hl : l.Holds i)
    (h1 : s.operand m1 1 = some p1) (h2 : s.operand m2 2 = some p2) :
    operandPhase s l =
      { latches := (l.setParam 1 .read p1).setParam 2 .read p2
        log := readTransactions m1 (s.slot 1) s.mem ++ readTransactions m2 (s.slot 2) s.mem
        raised := none } := by
  obtain ⟨heq, hm1, hm2⟩ := hi.operandPhase_eq (s := s) hl
  rw [heq, resolveParams_cons_of_some (v := p1) (hm1.symm ▸ h1),
    resolveParams_cons_of_some (v := p2) (by rw [Latches.setParam_modeOf, hm2]; exact h2)]
  simp [resolveParams, State.paramReads, hm1, hm2]

theorem operandPhase_out_resolved (hl : l.Holds (.out m)) (hp : s.operand m 1 = some p) :
    operandPhase s l =
      { latches := l.setParam 1 .read p, log := readTransactions m (s.slot 1) s.mem, raised := none } := by
  obtain ⟨heq, hm⟩ := operandPhase_out (s := s) hl
  rw [heq, resolveParams_cons_of_some (v := p) (hm.symm ▸ hp), hm]
  simp [resolveParams, State.paramReads]

theorem operandPhase_inp_resolved (hl : l.Holds .inp) (hv : s.nextInput = some v) (hd : s.destination 1 = some d) :
    operandPhase s l =
      { latches := { l with inv := v, dest := d }, log := targetTransactions (s.slot 1) s.mem, raised := none } := by
  rw [operandPhase_of_input hl.opc hv, resolveParams_cons_of_some (v := d) (r := .write) (n := 1) hd]
  simp [resolveParams, State.paramReads, Latches.setParam]

theorem BinaryInstr.stepByPhases_eq (hi : BinaryInstr (decode w) f m1 m2) (hs : s.status = .running)
    (hf : s.fetch = some w) (h1 : s.operand m1 1 = some p1) (h2 : s.operand m2 2 = some p2)
    (hd : s.destination 3 = some d) (l : Latches) :
    stepByPhases l s = ((s.store d (f p1 p2)).advance 4,
      .memRead s.ip.toInt w :: (readTransactions m1 (s.slot 1) s.mem ++ readTransactions m2 (s.slot 2) s.mem ++
        targetTransactions (s.slot 3) s.mem) ++ [.memWrite d.toInt (f p1 p2)]) := by
  have hl := l.decoded_holds w
  have hlegal : ∀ opc, decode w ≠ .illegal opc := by
    intro opc h
    rw [h] at hi
    cases hi
  exact stepByPhases_of_resolved hs hf hlegal (hi.operandPhase_resolved hl h1 h2 hd) (hi.executePhase_eq hl.opc)

theorem JumpInstr.stepByPhases_eq (hi : JumpInstr (decode w) taken m1 m2) (hs : s.status = .running)
    (hf : s.fetch = some w) (h1 : s.operand m1 1 = some p1) (h2 : s.operand m2 2 = some p2) (l : Latches) :
    stepByPhases l s = ({ s with ip := if taken p1 then p2 else (s.advance 3).ip },
      .memRead s.ip.toInt w :: (readTransactions m1 (s.slot 1) s.mem ++ readTransactions m2 (s.slot 2) s.mem) ++
        []) := by
  have hl := l.decoded_holds w
  have hlegal : ∀ opc, decode w ≠ .illegal opc := by
    intro opc h
    rw [h] at hi
    cases hi
  exact stepByPhases_of_resolved hs hf hlegal (hi.operandPhase_resolved hl h1 h2) (hi.executePhase_eq hl.opc)

theorem stepByPhases_inp (hi : decode w = .inp) (hs : s.status = .running) (hf : s.fetch = some w)
    (hv : s.nextInput = some v) (hd : s.destination 1 = some d) (l : Latches) :
    stepByPhases l s = ((s.store d v).consumeInput.advance 2,
      .memRead s.ip.toInt w :: targetTransactions (s.slot 1) s.mem ++ [.memWrite d.toInt v, .inTake v]) := by
  have hl : (l.decoded w).Holds .inp := hi ▸ l.decoded_holds w
  exact stepByPhases_of_resolved hs hf (by simp [hi]) (operandPhase_inp_resolved hl hv hd) (executePhase_inp hl.opc)

theorem stepByPhases_out (hi : decode w = .out m) (hs : s.status = .running) (hf : s.fetch = some w)
    (hp : s.operand m 1 = some p) (l : Latches) :
    stepByPhases l s = ((s.emit p).advance 2,
      .memRead s.ip.toInt w :: readTransactions m (s.slot 1) s.mem ++ [.outPush p]) := by
  have hl : (l.decoded w).Holds (.out m) := hi ▸ l.decoded_holds w
  exact stepByPhases_of_resolved hs hf (by simp [hi]) (operandPhase_out_resolved hl hp) (executePhase_out hl.opc)

theorem stepByPhases_hlt (hi : decode w = .hlt) (hs : s.status = .running) (hf : s.fetch = some w) (l : Latches) :
    stepByPhases l s = (s.halt, [.memRead s.ip.toInt w] ++ []) := by
  have hl : (l.decoded w).Holds .hlt := hi ▸ l.decoded_holds w
  exact stepByPhases_of_resolved hs hf (by simp [hi]) (operandPhase_hlt hl) (executePhase_hlt hl.opc)

end

/-! ### Every step by phases -/

/-- The transactions that COMMIT can make at a state: none, a write in bounds, the same with a take, or a push. -/
inductive State.Effects (s : State) : List Transaction → Prop
  | none : s.Effects []
  | store {d v : Word} (hd : s.mem.InBounds d.toInt) : s.Effects [.memWrite d.toInt v]
  | take {d v : Word} (hd : s.mem.InBounds d.toInt) : s.Effects [.memWrite d.toInt v, .inTake v]
  | push {v : Word} : s.Effects [.outPush v]

/-- Whatever the latches held, the step by phases is the step to t, and makes reads of stored cells and then effects. -/
structure State.PhasesTo (s t : State) (reads effects : List Transaction) : Prop where
  eq : ∀ l, stepByPhases l s = (t, reads ++ effects)
  step : step s = .next t
  reads_isReadOf : ∀ x ∈ reads, x.isReadOf s.mem
  allowed : s.Effects effects
  faulted : t.status = .faulted → effects = []
  ended : s.status ≠ .running → reads = [] ∧ effects = []

section
variable {s t : State} {w : Word} {m : Mode} {reads effects : List Transaction}

theorem readTransactions_all_isReadOf (s : State) (m : Mode) (n : Nat) :
    ∀ x ∈ readTransactions m (s.slot n) s.mem, x.isReadOf s.mem := fun _ => readTransactions_isReadOf

theorem targetTransactions_all_isReadOf (s : State) (n : Nat) :
    ∀ x ∈ targetTransactions (s.slot n) s.mem, x.isReadOf s.mem := fun _ => targetTransactions_isReadOf

/-- An instruction that completes: the fetch, the reads of its parameters, and its effects. -/
theorem State.phasesTo_of_completes (hs : s.status = .running) (hf : s.fetch = some w) (h : s.Completes (decode w) t)
    (heq : ∀ l, stepByPhases l s = (t, .memRead s.ip.toInt w :: reads ++ effects))
    (hreads : ∀ x ∈ reads, x.isReadOf s.mem) (heffects : s.Effects effects) :
    s.PhasesTo t (.memRead s.ip.toInt w :: reads) effects where
  eq := heq
  step := (step_of_current_eq_some hs (congrArg (Option.map decode) hf)).trans (exec_of_completes h)
  reads_isReadOf := List.forall_mem_cons.mpr ⟨hf, hreads⟩
  allowed := heffects
  faulted ht := absurd ht (h.status_ne_faulted hs)
  ended hn := absurd hs hn

theorem State.exists_phasesTo_of_completes (hs : s.status = .running) (hf : s.fetch = some w)
    (h : s.Completes (decode w) t) : ∃ reads effects, s.PhasesTo t reads effects := by
  generalize hi : decode w = i at h
  have hc : s.Completes (decode w) t := hi ▸ h
  cases h with
  | store hb h1 h2 hd =>
    subst hi
    exact ⟨_, _, State.phasesTo_of_completes hs hf hc (hb.stepByPhases_eq hs hf h1 h2 hd)
      (List.forall_mem_append.mpr ⟨List.forall_mem_append.mpr ⟨readTransactions_all_isReadOf s _ 1,
        readTransactions_all_isReadOf s _ 2⟩, targetTransactions_all_isReadOf s 3⟩)
      (.store (State.destination_inBounds hd))⟩
  | take hv hd =>
    exact ⟨_, _, State.phasesTo_of_completes hs hf hc (stepByPhases_inp hi hs hf hv hd)
      (targetTransactions_all_isReadOf s 1) (.take (State.destination_inBounds hd))⟩
  | push hp =>
    exact ⟨_, _, State.phasesTo_of_completes hs hf hc (stepByPhases_out hi hs hf hp)
      (readTransactions_all_isReadOf s _ 1) .push⟩
  | jump hj h1 h2 ht =>
    subst hi
    have heq := hj.stepByPhases_eq hs hf h1 h2
    rw [if_pos ht] at heq
    exact ⟨_, _, State.phasesTo_of_completes hs hf hc heq
      (List.forall_mem_append.mpr ⟨readTransactions_all_isReadOf s _ 1, readTransactions_all_isReadOf s _ 2⟩) .none⟩
  | pass hj h1 h2 ht =>
    subst hi
    have heq := hj.stepByPhases_eq hs hf h1 h2
    rw [ht] at heq
    exact ⟨_, _, State.phasesTo_of_completes hs hf hc heq
      (List.forall_mem_append.mpr ⟨readTransactions_all_isReadOf s _ 1, readTransactions_all_isReadOf s _ 2⟩) .none⟩
  | halt => exact ⟨_, _, State.phasesTo_of_completes hs hf hc (stepByPhases_hlt hi hs hf) (by simp) .none⟩

/-- Every state has its step by phases. -/
theorem State.exists_phasesTo (l : Latches) (s : State) : ∃ t reads effects, s.PhasesTo t reads effects := by
  obtain ⟨t, ht, hst⟩ := step_stepsTo s
  cases hst with
  | ended hn =>
    have heq : ∀ l, stepByPhases l s = (s, [] ++ []) := by
      intro l
      cases h : s.status with
      | running => exact absurd h hn
      | halted | faulted => simp only [stepByPhases, h, List.append_nil]
    exact ⟨s, [], [], heq, ht, by simp, .none, fun _ => rfl, fun _ => ⟨rfl, rfl⟩⟩
  | fetchRaises hs hc =>
    have hf : s.fetch = none := Option.map_eq_none_iff.mp hc
    have heq : ∀ l, stepByPhases l s = (s.raise .outOfBounds none, [] ++ []) := by
      intro l
      simp [stepByPhases, hs, phasesBeforeExecute, fetchPhase, hf]
    exact ⟨_, [], [], heq, ht, by simp, .none, fun _ => rfl, fun _ => ⟨rfl, rfl⟩⟩
  | executes hs hc ho =>
    obtain ⟨w, hf, rfl⟩ := Option.map_eq_some_iff.mp hc
    cases ho with
    | raises hr =>
      obtain ⟨reads, hreads, heq⟩ := stepByPhases_of_raises hs hf hr l
      exact ⟨_, reads, [], fun l => by rw [heq, List.append_nil], ht, hreads, .none, fun _ => rfl,
        fun hn => absurd hs hn⟩
    | completes hd =>
      obtain ⟨reads, effects, h⟩ := State.exists_phasesTo_of_completes hs hf hd
      exact ⟨t, reads, effects, h⟩

end

/-- Settles O51: the phases and the step function lead to the same state. -/
theorem phasesRefineTheStep : Obligations.PhasesRefineTheStep := by
  intro l s
  obtain ⟨t, reads, effects, h⟩ := State.exists_phasesTo l s
  rw [h.eq, h.step]

/-- Settles O52: the state and the transactions are the same for any latches. -/
theorem latchesAreNotObservable : Obligations.LatchesAreNotObservable := by
  intro l l' s
  obtain ⟨t, reads, effects, h⟩ := State.exists_phasesTo l s
  rw [h.eq, h.eq]

/-- Settles O53: reads receive stored cells, and the one write is at a destination that was checked. -/
theorem everyIssuedAccessIsInBounds : Obligations.EveryIssuedAccessIsInBounds := by
  intro l s x hx
  obtain ⟨t, reads, effects, h⟩ := State.exists_phasesTo l s
  rw [h.eq] at hx
  obtain hx | hx := List.mem_append.mp hx
  · exact Transaction.isReadOf_inBounds (h.reads_isReadOf x hx)
  · cases h.allowed with
    | none => cases hx
    | store hd => cases List.mem_singleton.mp hx; exact hd
    | take hd =>
      obtain rfl | hx := List.mem_cons.mp hx
      · exact hd
      · cases List.mem_singleton.mp hx; trivial
    | push => cases List.mem_singleton.mp hx; trivial

theorem State.Effects.not_isRead {s : State} {effects : List Transaction} (h : s.Effects effects) :
    (∀ x ∈ effects, x.isRead = false) ∧ (effects.filter Transaction.isWrite).length ≤ 1 := by
  cases h <;> simp [Transaction.isRead, Transaction.isWrite, List.filter]

/-- Settles O54: the effects of the step are what COMMIT can make. -/
theorem readsComeBeforeTheOneWrite : Obligations.ReadsComeBeforeTheOneWrite := by
  intro l s
  obtain ⟨t, reads, effects, h⟩ := State.exists_phasesTo l s
  obtain ⟨hnot, hone⟩ := h.allowed.not_isRead
  rw [h.eq]
  exact ⟨reads, effects, rfl, fun x hx => Transaction.isReadOf_isRead (h.reads_isReadOf x hx), hnot, hone, h.faulted,
    h.ended⟩

/-- Settles O55: no effect is a read. -/
theorem everyReadReceivesTheStoredCell : Obligations.EveryReadReceivesTheStoredCell := by
  intro l s a v hx
  obtain ⟨t, reads, effects, h⟩ := State.exists_phasesTo l s
  rw [h.eq] at hx
  obtain hx | hx := List.mem_append.mp hx
  · exact h.reads_isReadOf _ hx
  · exact absurd (h.allowed.not_isRead.1 _ hx) (by simp [Transaction.isRead])

/-- Settles O56: each of the four parameters' calls succeeds, and the store is the value of the shared shape. -/
theorem fourCellInstructionsAccessMemoryInOrder : Obligations.FourCellInstructionsAccessMemoryInOrder := by
  intro l s i m1 m2 w v1 v2 p1 p2 d v hs hf hdec hi hv1 h1 hv2 h2 hd hv
  have hbinary : ∃ f, BinaryInstr i f m1 m2 := by
    rcases hi with rfl | rfl | rfl | rfl
    · exact ⟨_, .add m1 m2⟩
    · exact ⟨_, .mul m1 m2⟩
    · exact ⟨_, .lt m1 m2⟩
    · exact ⟨_, .eq m1 m2⟩
  obtain ⟨f, hb⟩ := hbinary
  cases (hb.storedValue_eq h1 h2).symm.trans hv
  subst hdec
  rw [hb.stepByPhases_eq hs hf h1 h2 hd, readTransactions_of_operand hv1 h1, readTransactions_of_operand hv2 h2,
    targetTransactions_of_destination hd]
  simp

/-- Settles O57: each instruction's step by phases, with the reads that its successful calls make. -/
theorem shorterInstructionsIssueTheirAccesses : Obligations.ShorterInstructionsIssueTheirAccesses := by
  intro l s w hs hf
  refine ⟨fun v d hi hv hd => ?inp, fun m1 v1 p1 hi hv1 h1 => ?out, fun m1 m2 v1 v2 p1 p2 hi hv1 h1 hv2 h2 => ?jump,
    fun hi => ?hlt⟩
  case inp => rw [stepByPhases_inp hi hs hf hv hd, targetTransactions_of_destination hd]; rfl
  case out => rw [stepByPhases_out hi hs hf h1, readTransactions_of_operand hv1 h1]; rfl
  case jump =>
    have hjump : ∃ taken, JumpInstr (decode w) taken m1 m2 := by
      rcases hi with hi | hi <;> rw [hi]
      · exact ⟨_, .jt m1 m2⟩
      · exact ⟨_, .jf m1 m2⟩
    obtain ⟨taken, hj⟩ := hjump
    rw [hj.stepByPhases_eq hs hf h1 h2, readTransactions_of_operand hv1 h1, readTransactions_of_operand hv2 h2]
    simp
  case hlt => rw [stepByPhases_hlt hi hs hf]; rfl

end Sys2Proof.Machine

/-! PROOFS. The whole machine: the load of one instruction, and what listings assemble to. -/

namespace Sys2Proof.Machine

/-! ### Loading cells (log 3) -/

theorem Memory.load_len (vs : List Word) (m : Memory) (a : Nat) : (m.load a vs).len = m.len := by
  induction vs generalizing m a with
  | nil => rfl
  | cons v rest ih => exact ih _ _

/-- A load from an address up leaves the cells below it. -/
theorem Memory.lookup_load_below (vs : List Word) (m : Memory) {a b : Nat} (hb : b < a) :
    Memory.lookup (m.load a vs).cells b = Memory.lookup m.cells b := by
  induction vs generalizing m a with
  | nil => rfl
  | cons v rest ih =>
    rw [Memory.load, ih _ (hb.trans (Nat.lt_succ_self a))]
    exact Memory.lookup_setCell_other _ _ _ _ hb.ne'

theorem Memory.read_load_head (v : Word) (rest : List Word) (m : Memory) {a : Nat} (ha : a < m.len) :
    (m.load a (v :: rest)).read a = some v := by
  have hb : (m.load a (v :: rest)).InBounds a := ⟨by omega, by rw [Memory.load_len]; omega⟩
  rw [Memory.read_of_inBounds hb, Int.toNat_natCast, Memory.load, Memory.lookup_load_below _ _ (Nat.lt_succ_self a),
    Memory.lookup_setCell_same]

/-- The address of a load is one that a fetch can have. -/
theorem State.loadAddress_toInt (s : State) : (BitVec.ofNat 64 s.loadAddress).toInt = s.loadAddress := by
  have hle : s.loadAddress ≤ Config.maxLen := by
    unfold State.loadAddress
    split
    · omega
    · exact Nat.zero_le _
  rw [Config.maxLen] at hle
  rw [← BitVec.ofInt_natCast]
  exact toInt_ofInt_of_range (by omega) (by omega)

theorem State.fetch_loadAtFetch (s : State) (v : Word) (rest : List Word) :
    (s.loadAtFetch (v :: rest)).fetch = some v := by
  have hroom : s.loadAddress < max s.mem.len (s.loadAddress + (v :: rest).length) := by
    simp only [List.length_cons]
    omega
  change Memory.read _ (BitVec.ofNat 64 s.loadAddress).toInt = some v
  rw [State.loadAddress_toInt]
  exact Memory.read_load_head v rest { s.mem with len := max s.mem.len (s.loadAddress + (v :: rest).length) } hroom

/-- Settles O60: the first of the loaded cells is the one that is fetched. -/
theorem loadedWordIsTheNextToRun : Obligations.LoadedWordIsTheNextToRun := fun s _ _ =>
  ⟨_, rfl, stepRunsTheDecodedInstruction _ _ rfl (State.fetch_loadAtFetch s _ _)⟩

/-! ### Canonical words of items -/

theorem digit_eq {m : Mode} {d : Nat} (h : (m = .imm ∧ d = 1) ∨ (m = .pos ∧ d = 0)) : m.digit = d := by
  obtain ⟨rfl, rfl⟩ | ⟨rfl, rfl⟩ := h <;> rfl

/-- The cells of an item that stands for an instruction. -/
theorem itemValues_of_itemInstr {item : AsmItem} {i : Instr} (h : itemInstr item = some i) :
    (itemValues item).head? = some (.lit (encode i)) ∧ decode (encode i) = i ∧
      i.format.map Format.length = some (itemValues item).length := by
  cases item with
  | data | label => cases h
  | _ => cases h; exact ⟨rfl, decodeOfEncodeIsIdentity _ rfl, rfl⟩

/-! ### The addresses of labels -/

theorem labelAddress_of_mem {n : Nat} {items : List AsmItem} (h : AsmItem.label n ∈ items) (a : Nat) :
    ∃ b, labelAddress n a items = some b := by
  induction items generalizing a with
  | nil => cases h
  | cons item rest ih =>
    rw [labelAddress]
    split
    · exact ⟨a, rfl⟩
    · next hne => exact ih ((List.mem_cons.mp h).resolve_left (Ne.symm hne)) _

/-- The first definition of a label stands at the address of the cell after it. -/
theorem labelAddress_append {n : Nat} {before : List AsmItem} (h : AsmItem.label n ∉ before) (after : List AsmItem)
    (a : Nat) : labelAddress n a (before ++ .label n :: after) = some (a + (before.flatMap itemValues).length) := by
  induction before generalizing a with
  | nil => simp [labelAddress]
  | cons item rest ih =>
    obtain ⟨hne, hrest⟩ := not_or.mp (mt List.mem_cons.mpr h)
    rw [List.cons_append, labelAddress, if_neg (Ne.symm hne), ih hrest, List.flatMap_cons, List.length_append,
      Nat.add_assoc]

/-! ### The cells of a listing -/

section
variable {α β : Type} {f : α → Option β} {xs : List α} {ys : List β}

/-- mapM over Option succeeds when every value has a result. -/
theorem exists_mapM_eq_some (h : ∀ x ∈ xs, ∃ y, f x = some y) : ∃ ys, xs.mapM f = some ys := by
  induction xs with
  | nil => exact ⟨[], rfl⟩
  | cons x rest ih =>
    obtain ⟨hx, hrest⟩ := List.forall_mem_cons.mp h
    obtain ⟨y, hy⟩ := hx
    obtain ⟨ys, hys⟩ := ih hrest
    exact ⟨y :: ys, by simp [List.mapM_cons, hy, hys]⟩

/-- The results of mapM over Option, in order. -/
theorem map_eq_of_mapM_eq_some (h : xs.mapM f = some ys) : xs.map f = ys.map some := by
  induction xs generalizing ys with
  | nil => cases h; rfl
  | cons x rest ih =>
    rw [List.mapM_cons] at h
    obtain ⟨y, hy, h⟩ := Option.bind_eq_some_iff.mp h
    obtain ⟨zs, hzs, h⟩ := Option.bind_eq_some_iff.mp h
    cases h
    rw [List.map_cons, List.map_cons, hy, ih hzs]

theorem getElem?_of_mapM_eq_some {j : Nat} {x : α} (h : xs.mapM f = some ys) (hx : xs[j]? = some x) :
    ys[j]? = f x := by
  have hj : (xs.map f)[j]? = (ys.map some)[j]? := by rw [map_eq_of_mapM_eq_some h]
  rw [List.getElem?_map, List.getElem?_map, hx] at hj
  obtain ⟨y, hy, hfx⟩ := Option.map_eq_some_iff.mp hj.symm
  rw [hy, ← hfx]

theorem length_of_mapM_eq_some (h : xs.mapM f = some ys) : ys.length = xs.length := by
  simpa using (congrArg List.length (map_eq_of_mapM_eq_some h)).symm

end

/-- The cells of an item stand behind those of the items before it. -/
theorem getElem?_flatMap_itemValues {before after : List AsmItem} {item : AsmItem} {k : Nat} {v : CellValue}
    (h : (itemValues item)[k]? = some v) :
    ((before ++ item :: after).flatMap itemValues)[(before.flatMap itemValues).length + k]? = some v := by
  have hk : k < (itemValues item).length := (List.getElem?_eq_some_iff.mp h).1
  rw [List.flatMap_append, List.getElem?_append_right (Nat.le_add_right _ _), Nat.add_sub_cancel_left,
    List.flatMap_cons, List.getElem?_append_left hk, h]

/-- A listing has cells when the labels it uses are defined. -/
theorem exists_assemble {items : List AsmItem}
    (h : ∀ n, CellValue.label n ∈ items.flatMap itemValues → AsmItem.label n ∈ items) :
    ∃ ws, assemble items = some ws := by
  refine exists_mapM_eq_some fun v hv => ?_
  cases v with
  | lit w => exact ⟨w, rfl⟩
  | label n =>
    obtain ⟨b, hb⟩ := labelAddress_of_mem (h n hv) 0
    exact ⟨BitVec.ofNat 64 b, congrArg (Option.map (BitVec.ofNat 64)) hb⟩

/-- Settles O59, clause by clause: the marks, the canonical words, the cells of an item, and those of a listing with
its labels. -/
theorem assembledInstructionsDecode : Obligations.AssembledInstructionsDecode := by
  refine ⟨fun v => ⟨rfl, rfl, rfl, rfl⟩, fun m1 m2 d1 d2 h1 h2 => ?canonicalWords,
    fun a b c => ⟨rfl, rfl, rfl, rfl, rfl, rfl, rfl, rfl, rfl, fun _ => rfl, fun _ => rfl⟩,
    fun item i => itemValues_of_itemInstr, fun items => exists_assemble, fun before item after ws h => ?cells,
    fun _ _ => rfl, fun before after n hb _ => ?labels⟩
  case canonicalWords =>
    have hd1 := digit_eq h1
    have hd2 := digit_eq h2
    have htwo : ∀ (i : Instr) (o : Nat), i.opcode = o → i.modeDigits = 100 * m1.digit + 1000 * m2.digit →
        encode i = BitVec.ofNat 64 (o + 100 * d1 + 1000 * d2) := fun i o ho hm =>
      encode_eq_ofNat (by rw [ho, hm, hd1, hd2]; push_cast; ring)
    have hone : encode (.out m1) = BitVec.ofNat 64 (4 + 100 * d1) :=
      encode_eq_ofNat (by simp [Instr.opcode, Instr.modeDigits, hd1])
    exact ⟨htwo _ 1 rfl rfl, htwo _ 2 rfl rfl, rfl, hone, htwo _ 5 rfl rfl, htwo _ 6 rfl rfl, htwo _ 7 rfl rfl,
      htwo _ 8 rfl rfl, rfl⟩
  case cells =>
    exact ⟨length_of_mapM_eq_some h, fun k v hv => getElem?_of_mapM_eq_some h (getElem?_flatMap_itemValues hv)⟩
  case labels =>
    rw [cellOf, labelAddress_append hb, Option.map_some, Nat.zero_add]

end Sys2Proof.Machine
